-- ==== Sys2Proof/Word.lean ====
section
/-!
DEFINITION. The word types of the hardware (spec/10_state.md R21, R24, R28; spec/00_scope.md R12).
-/
namespace Sys2Proof

/-- An 8-bit value: a memory byte, a general register, a timer, the literal `nn`. -/
abbrev Byte := BitVec 8

/-- A 16-bit value: an instruction word, the program counter, the index register, a stack entry. -/
abbrev Word := BitVec 16

/-- A 12-bit address literal, the field `nnn`. -/
abbrev Addr12 := BitVec 12

/-- A 4-bit literal, the field `n`. -/
abbrev Nibble := BitVec 4

/-- The number of a general register, 0 to 15: the fields `x` and `y` (R94: all 16 values are legal). -/
abbrev RegIdx := Fin 16

end Sys2Proof
end

