-- ==== Sys2Proof/Machine/Flags.lean ====
section
/-!
DEFINITION. The flag computations: what an instruction writes to `v[0xF]` (spec/10_state.md R22, spec/43_alu.md R159).
-/
namespace Sys2Proof.Machine

/-- A flag as the byte 1 or 0. -/
def flagByte (c : Bool) : Byte := if c then 1 else 0

/-- The carry of 8xy4 (R154): the unclamped sum is above 255. -/
def carryFlag (a b : Byte) : Byte := flagByte (decide (255 < a.toNat + b.toNat))

/-- The no-borrow flag of 8xy5 and 8xy7 (R155, R157): minuend at least subtrahend. -/
def noBorrowFlag (minuend subtrahend : Byte) : Byte := flagByte (decide (subtrahend.toNat ≤ minuend.toNat))

/-- The bit 8xy6 shifts out (R156): bit 0. -/
def shiftRightFlag (a : Byte) : Byte := a &&& 1

/-- The bit 8xyE shifts out (R158): bit 7, as 0 or 1. -/
def shiftLeftFlag (a : Byte) : Byte := a >>> 7

end Sys2Proof.Machine
end

