-- ==== Sys2Proof/Syntax.lean ====
section
/-!
DEFINITION. The instruction set: one constructor per pattern of spec/30_encoding.md R103 (spec/opcode_table.json).
Operands are the fields of R94; every value of every field is legal (R94, R99).
-/
namespace Sys2Proof

/-- The 34 instructions, in the order of the opcode table. -/
inductive Instr where
  /-- 00E0, clear the framebuffer (R180). -/
  | cls
  /-- 00EE, return from subroutine (R120). -/
  | ret
  /-- 1nnn, jump (R121). -/
  | jp (nnn : Addr12)
  /-- 2nnn, call (R122). -/
  | call (nnn : Addr12)
  /-- 3xnn, skip if register equals literal (R130). -/
  | seImm (x : RegIdx) (nn : Byte)
  /-- 4xnn, skip if register differs from literal (R131). -/
  | sneImm (x : RegIdx) (nn : Byte)
  /-- 5xy0, skip if registers equal (R132). -/
  | seReg (x y : RegIdx)
  /-- 6xnn, load literal (R140). -/
  | ldImm (x : RegIdx) (nn : Byte)
  /-- 7xnn, add literal (R141). -/
  | addImm (x : RegIdx) (nn : Byte)
  /-- 8xy0, assign (R150). -/
  | ldReg (x y : RegIdx)
  /-- 8xy1, bitwise or (R151). -/
  | orReg (x y : RegIdx)
  /-- 8xy2, bitwise and (R152). -/
  | andReg (x y : RegIdx)
  /-- 8xy3, bitwise exclusive or (R153). -/
  | xorReg (x y : RegIdx)
  /-- 8xy4, add with carry out (R154). -/
  | addReg (x y : RegIdx)
  /-- 8xy5, subtract (R155). -/
  | sub (x y : RegIdx)
  /-- 8xy6, shift right by one (R156); `y` is encoded and ignored. -/
  | shr (x y : RegIdx)
  /-- 8xy7, reverse subtract (R157). -/
  | subn (x y : RegIdx)
  /-- 8xyE, shift left by one (R158); `y` is encoded and ignored. -/
  | shl (x y : RegIdx)
  /-- 9xy0, skip if registers differ (R133). -/
  | sneReg (x y : RegIdx)
  /-- Annn, load index (R170). -/
  | ldI (nnn : Addr12)
  /-- Bnnn, jump with offset `v[0]` (R123). -/
  | jpV0 (nnn : Addr12)
  /-- Cxnn, random and mask (R142). -/
  | rnd (x : RegIdx) (nn : Byte)
  /-- Dxyn, draw sprite (R181, R182). -/
  | drw (x y : RegIdx) (n : Nibble)
  /-- Ex9E, skip if key pressed (R190). -/
  | skp (x : RegIdx)
  /-- ExA1, skip if key not pressed (R191). -/
  | sknp (x : RegIdx)
  /-- Fx07, read delay timer (R200). -/
  | ldVxDt (x : RegIdx)
  /-- Fx0A, wait for a key (R192). -/
  | ldVxK (x : RegIdx)
  /-- Fx15, set delay timer (R201). -/
  | ldDtVx (x : RegIdx)
  /-- Fx18, set sound timer (R202). -/
  | ldStVx (x : RegIdx)
  /-- Fx1E, add register to index (R171). -/
  | addI (x : RegIdx)
  /-- Fx29, point index at font glyph (R172). -/
  | ldF (x : RegIdx)
  /-- Fx33, store decimal digits (R173). -/
  | ldB (x : RegIdx)
  /-- Fx55, store registers (R174). -/
  | stRegs (x : RegIdx)
  /-- Fx65, load registers (R175). -/
  | ldRegs (x : RegIdx)
  deriving DecidableEq, Repr

end Sys2Proof
end

