-- ==== Sys2Proof/WellFormed.lean ====
section
/-!
DEFINITION. Well-formedness of operands (spec/30_encoding.md R93, R94, R101). An `Instr` cannot hold an operand out of
range, because its fields have the widths of R94; the checks below are on operands written as plain numbers, as an
assembler or a table writes them (R101: unsigned literals of 12, 8 and 4 bits), and `Operands.wf` refuses each that does
not fit its field.
-/
namespace Sys2Proof

/-- The operands of an instruction as plain numbers, by format (R93). -/
inductive Operands where
  /-- Format Z: none. -/
  | fmtZ
  /-- Format A: a 12-bit address. -/
  | fmtA (nnn : Nat)
  /-- Format I: a register and an 8-bit literal. -/
  | fmtI (x nn : Nat)
  /-- Format R: two registers. -/
  | fmtR (x y : Nat)
  /-- Format D: two registers and a 4-bit literal. -/
  | fmtD (x y n : Nat)
  /-- Format X: a register. -/
  | fmtX (k : Nat)
  deriving DecidableEq, Repr

/-- A register number is 0 to 15 (R94). -/
def Operands.regOk (k : Nat) : Bool := k < 16
/-- An address literal has 12 bits (R94). -/
def Operands.addrOk (k : Nat) : Bool := k < 4096
/-- A byte literal has 8 bits (R94). -/
def Operands.byteOk (k : Nat) : Bool := k < 256
/-- A nibble literal has 4 bits (R94). -/
def Operands.nibbleOk (k : Nat) : Bool := k < 16

/-- Every operand fits its field. -/
def Operands.wf : Operands → Bool
  | .fmtZ => true
  | .fmtA nnn => addrOk nnn
  | .fmtI x nn => regOk x && byteOk nn
  | .fmtR x y => regOk x && regOk y
  | .fmtD x y n => regOk x && regOk y && nibbleOk n
  | .fmtX k => regOk k

/-- The operands of an instruction, in the format R93 gives it. -/
def Instr.operands : Instr → Operands
  | .cls => .fmtZ
  | .ret => .fmtZ
  | .jp nnn => .fmtA nnn.toNat
  | .call nnn => .fmtA nnn.toNat
  | .seImm x nn => .fmtI x.val nn.toNat
  | .sneImm x nn => .fmtI x.val nn.toNat
  | .seReg x y => .fmtR x.val y.val
  | .ldImm x nn => .fmtI x.val nn.toNat
  | .addImm x nn => .fmtI x.val nn.toNat
  | .ldReg x y => .fmtR x.val y.val
  | .orReg x y => .fmtR x.val y.val
  | .andReg x y => .fmtR x.val y.val
  | .xorReg x y => .fmtR x.val y.val
  | .addReg x y => .fmtR x.val y.val
  | .sub x y => .fmtR x.val y.val
  | .shr x y => .fmtR x.val y.val
  | .subn x y => .fmtR x.val y.val
  | .shl x y => .fmtR x.val y.val
  | .sneReg x y => .fmtR x.val y.val
  | .ldI nnn => .fmtA nnn.toNat
  | .jpV0 nnn => .fmtA nnn.toNat
  | .rnd x nn => .fmtI x.val nn.toNat
  | .drw x y n => .fmtD x.val y.val n.toNat
  | .skp x => .fmtX x.val
  | .sknp x => .fmtX x.val
  | .ldVxDt x => .fmtX x.val
  | .ldVxK x => .fmtX x.val
  | .ldDtVx x => .fmtX x.val
  | .ldStVx x => .fmtX x.val
  | .addI x => .fmtX x.val
  | .ldF x => .fmtX x.val
  | .ldB x => .fmtX x.val
  | .stRegs x => .fmtX x.val
  | .ldRegs x => .fmtX x.val

/-- An instruction is well formed when its operands fit; the typing of `Instr` makes it so (Laws/PerInstr.lean). -/
def Instr.wf (i : Instr) : Bool := i.operands.wf

end Sys2Proof
end

