-- ==== Sys2Proof/Decode.lean ====
section
/-!
DEFINITION. The decoder (spec/30_encoding.md R92 to R99), total on every word and on every byte list, refusing by name;
then the encoder, from the same tables, and the host's view of the decoder. Nothing here depends on the machine's state
(R92).
-/
namespace Sys2Proof

/-- `op[15:12]`, the high digit (R10). -/
def digit3 (w : Word) : Nibble := w.extractLsb' 12 4
/-- The field `x = op[11:8]` (R94). -/
def fieldX (w : Word) : RegIdx := (w.extractLsb' 8 4).toFin
/-- The field `y = op[7:4]` (R94). -/
def fieldY (w : Word) : RegIdx := (w.extractLsb' 4 4).toFin
/-- The field `n = op[3:0]`, which is also the minor opcode of format R (R94). -/
def fieldN (w : Word) : Nibble := w.extractLsb' 0 4
/-- The field `nn = op[7:0]`, which is also the function code of format X (R94). -/
def fieldNN (w : Word) : Byte := w.extractLsb' 0 8
/-- The field `nnn = op[11:0]` (R94). -/
def fieldNNN (w : Word) : Addr12 := w.extractLsb' 0 12

/-- Why a word or a byte list is no instruction: the groups of R98's table, and a list too short to hold a word. -/
inductive DecodeReject where
  /-- Fewer than two bytes. -/
  | truncated
  /-- 0x0nnn other than 0x00E0 and 0x00EE. -/
  | group0 (w : Word)
  /-- 5xyk with k not 0. -/
  | group5 (w : Word)
  /-- 8xyk with k from 8 to 0xD, or 0xF. -/
  | group8 (w : Word)
  /-- 9xyk with k not 0. -/
  | group9 (w : Word)
  /-- Exkk with kk neither 0x9E nor 0xA1. -/
  | groupE (w : Word)
  /-- Fxkk with kk none of the nine function codes. -/
  | groupF (w : Word)
  deriving DecidableEq, Repr

/-- Group 0x0: the two fixed words, matched on all 16 bits (R95; 90_conflicts.md C7, log 11). -/
def decodeGroup0 (w : Word) : Except DecodeReject Instr :=
  if w = 0x00E0 then .ok .cls
  else if w = 0x00EE then .ok .ret
  else .error (.group0 w)

/-- Group 0x8 by the minor opcode `op[3:0]` (R96; the numbers of six of the nine are log 8). -/
def decodeGroup8 (w : Word) : Except DecodeReject Instr :=
  match (fieldN w).toNat with
  | 0x0 => .ok (.ldReg (fieldX w) (fieldY w))
  | 0x1 => .ok (.orReg (fieldX w) (fieldY w))
  | 0x2 => .ok (.andReg (fieldX w) (fieldY w))
  | 0x3 => .ok (.xorReg (fieldX w) (fieldY w))
  | 0x4 => .ok (.addReg (fieldX w) (fieldY w))
  | 0x5 => .ok (.sub (fieldX w) (fieldY w))
  | 0x6 => .ok (.shr (fieldX w) (fieldY w))
  | 0x7 => .ok (.subn (fieldX w) (fieldY w))
  | 0xE => .ok (.shl (fieldX w) (fieldY w))
  | _ => .error (.group8 w)

/-- Group 0xE by the function code `op[7:0]` (R97). -/
def decodeGroupE (w : Word) : Except DecodeReject Instr :=
  if fieldNN w = 0x9E then .ok (.skp (fieldX w))
  else if fieldNN w = 0xA1 then .ok (.sknp (fieldX w))
  else .error (.groupE w)

/-- Group 0xF by the function code `op[7:0]` (R97; the roles of 07, 15 and 18 are log 8). -/
def decodeGroupF (w : Word) : Except DecodeReject Instr :=
  if fieldNN w = 0x07 then .ok (.ldVxDt (fieldX w))
  else if fieldNN w = 0x0A then .ok (.ldVxK (fieldX w))
  else if fieldNN w = 0x15 then .ok (.ldDtVx (fieldX w))
  else if fieldNN w = 0x18 then .ok (.ldStVx (fieldX w))
  else if fieldNN w = 0x1E then .ok (.addI (fieldX w))
  else if fieldNN w = 0x29 then .ok (.ldF (fieldX w))
  else if fieldNN w = 0x33 then .ok (.ldB (fieldX w))
  else if fieldNN w = 0x55 then .ok (.stRegs (fieldX w))
  else if fieldNN w = 0x65 then .ok (.ldRegs (fieldX w))
  else .error (.groupF w)

/-- Decode one word by its high digit (R95). The last arm is digit 0xF, the only one left. -/
def decode (w : Word) : Except DecodeReject Instr :=
  match (digit3 w).toNat with
  | 0x0 => decodeGroup0 w
  | 0x1 => .ok (.jp (fieldNNN w))
  | 0x2 => .ok (.call (fieldNNN w))
  | 0x3 => .ok (.seImm (fieldX w) (fieldNN w))
  | 0x4 => .ok (.sneImm (fieldX w) (fieldNN w))
  | 0x5 => if fieldN w = 0 then .ok (.seReg (fieldX w) (fieldY w)) else .error (.group5 w)
  | 0x6 => .ok (.ldImm (fieldX w) (fieldNN w))
  | 0x7 => .ok (.addImm (fieldX w) (fieldNN w))
  | 0x8 => decodeGroup8 w
  | 0x9 => if fieldN w = 0 then .ok (.sneReg (fieldX w) (fieldY w)) else .error (.group9 w)
  | 0xA => .ok (.ldI (fieldNNN w))
  | 0xB => .ok (.jpV0 (fieldNNN w))
  | 0xC => .ok (.rnd (fieldX w) (fieldNN w))
  | 0xD => .ok (.drw (fieldX w) (fieldY w) (fieldN w))
  | 0xE => decodeGroupE w
  | _ => decodeGroupF w

/-- The word of two bytes, the byte at the lower address high (R62, R91). -/
def wordOfBytes (hi lo : Byte) : Word := hi ++ lo

/-- Decode the instruction at the head of a byte list and give back the rest of the list. -/
def decodeBytes : List Byte → Except DecodeReject (Instr × List Byte)
  | hi :: lo :: rest =>
    match decode (wordOfBytes hi lo) with
    | .ok i => .ok (i, rest)
    | .error e => .error e
  | _ => .error .truncated

/-- A word of format A: a digit and a 12-bit address (R93). -/
def formatA (d : Nibble) (nnn : Addr12) : Word := d ++ nnn
/-- A word of format I: a digit, a register and a byte (R93). -/
def formatI (d : Nibble) (x : RegIdx) (nn : Byte) : Word := d ++ (BitVec.ofFin x : Nibble) ++ nn
/-- A word of formats R and D: a digit, two registers and a nibble (R93). -/
def formatR (d : Nibble) (x y : RegIdx) (n : Nibble) : Word := d ++ (BitVec.ofFin x : Nibble) ++ (BitVec.ofFin y : Nibble) ++ n

/-- The word of an instruction (R93, R95 to R97). Format X is laid out as format I with the function code as byte. -/
def encode : Instr → Word
  | .cls => 0x00E0
  | .ret => 0x00EE
  | .jp nnn => formatA 0x1 nnn
  | .call nnn => formatA 0x2 nnn
  | .seImm x nn => formatI 0x3 x nn
  | .sneImm x nn => formatI 0x4 x nn
  | .seReg x y => formatR 0x5 x y 0x0
  | .ldImm x nn => formatI 0x6 x nn
  | .addImm x nn => formatI 0x7 x nn
  | .ldReg x y => formatR 0x8 x y 0x0
  | .orReg x y => formatR 0x8 x y 0x1
  | .andReg x y => formatR 0x8 x y 0x2
  | .xorReg x y => formatR 0x8 x y 0x3
  | .addReg x y => formatR 0x8 x y 0x4
  | .sub x y => formatR 0x8 x y 0x5
  | .shr x y => formatR 0x8 x y 0x6
  | .subn x y => formatR 0x8 x y 0x7
  | .shl x y => formatR 0x8 x y 0xE
  | .sneReg x y => formatR 0x9 x y 0x0
  | .ldI nnn => formatA 0xA nnn
  | .jpV0 nnn => formatA 0xB nnn
  | .rnd x nn => formatI 0xC x nn
  | .drw x y n => formatR 0xD x y n
  | .skp x => formatI 0xE x 0x9E
  | .sknp x => formatI 0xE x 0xA1
  | .ldVxDt x => formatI 0xF x 0x07
  | .ldVxK x => formatI 0xF x 0x0A
  | .ldDtVx x => formatI 0xF x 0x15
  | .ldStVx x => formatI 0xF x 0x18
  | .addI x => formatI 0xF x 0x1E
  | .ldF x => formatI 0xF x 0x29
  | .ldB x => formatI 0xF x 0x33
  | .stRegs x => formatI 0xF x 0x55
  | .ldRegs x => formatI 0xF x 0x65

/-- The high byte of a word, stored at the lower address (R62). -/
def hiByte (w : Word) : Byte := w.extractLsb' 8 8
/-- The low byte of a word (R62). -/
def loByte (w : Word) : Byte := w.extractLsb' 0 8

/-- The bytes of an instruction as memory holds them. -/
def encodeBytes (i : Instr) : List Byte := [hiByte (encode i), loByte (encode i)]

/-- The word of an instruction given by its first `nbits` bits, the bits above them zero. -/
def tableWord (nbits w : Nat) : Word := BitVec.ofNat 16 (w % 2 ^ nbits)

/-- What the decoder reads from the instruction whose bits are `w`, numbered as spec/opcode_table.json numbers them. -/
def decodeTableWord (nbits w : Nat) : Option Instr :=
  match decodeBytes [hiByte (tableWord nbits w), loByte (tableWord nbits w)] with
  | .ok (i, _) => some i
  | .error _ => none

end Sys2Proof
end

