-- ==== Sys2Proof/Config.lean ====
section
/-!
DEFINITION. What the spec fixes as sizes (spec/00_scope.md R6), the types of its open parameters (R8), and the one free
value of the model, the random byte. The VALUES this machine gives the open parameters are in Machine/Params.lean.
-/
namespace Sys2Proof

/-- `MEM_SIZE` (R6): addresses 0x000 to 0xFFF. -/
@[simp] abbrev Config.memSize : Nat := 4096

/-- `PROG_BASE` (R6): where the program image is placed and execution starts. -/
@[simp] abbrev Config.progBase : Nat := 0x200

/-- `MAX_PROG` (R6): the longest program image, 4096 - 0x200. -/
@[simp] abbrev Config.maxProg : Nat := 3584

/-- `GLYPH_SIZE` (R6): bytes per font glyph. -/
@[simp] abbrev Config.glyphSize : Nat := 5

/-- `OOR_POLICY` (R8): what an access to an address above 0xFFF does (R66, R67; the alternative is R78). -/
inductive OorPolicy where
  /-- The access is a fault of the step: the spec's default. -/
  | fault
  /-- Every byte address is presented to memory modulo 4096 (R78). -/
  | wrap
  deriving DecidableEq, Repr

/-- `KEY_INDEX_POLICY` (R8, R193): what Ex9E and ExA1 do when `v[x]` is above 15. -/
inductive KeyIndexPolicy where
  /-- The step faults: the spec's default. -/
  | fault
  /-- Key `v[x] & 0xF` is tested. -/
  | mask
  /-- A key above 15 is never pressed. -/
  | released
  deriving DecidableEq, Repr

/-- The two open policies together: an argument of `stepWith` and `CpuState.step` (Machine/Policy.lean). -/
structure Policies where
  oor : OorPolicy
  keyIndex : KeyIndexPolicy
  deriving DecidableEq, Repr

/-- DESIGN CHOICE (log 6; safe). The random source of Cxnn (R142, D13): the byte of the n-th draw of a run in the
host's interface, whose step takes no draw (R36: `CpuState.step` takes it as an argument). It has no body, so
nothing can be proved of its values, and a theorem holds for every sequence of draws. -/
opaque Config.drawByte : Nat → Byte

end Sys2Proof
end

