-- ==== Sys2Proof/Machine/Params.lean ====
section
/-!
DEFINITION. The values this machine gives the spec's open parameters (spec/00_scope.md R8) and the reset contents of
memory (spec/10_state.md R40, R41).
-/
namespace Sys2Proof.Machine

/-- `OOR_POLICY` (R8; D2, D3): the spec's default (log 2; safe). -/
def oorPolicy : OorPolicy := .fault

/-- `KEY_INDEX_POLICY` (R8; D6): the spec's default (log 3; safe). -/
def keyIndexPolicy : KeyIndexPolicy := .fault

/-- `FONT` (R41; D12): the default 80 bytes, glyph k at address 5*k. PRESUMED (log 4; unsafe): the spec takes them from
general knowledge. -/
def font : List Byte :=
  [0xF0, 0x90, 0x90, 0x90, 0xF0] ++
  [0x20, 0x60, 0x20, 0x20, 0x70] ++
  [0xF0, 0x10, 0xF0, 0x80, 0xF0] ++
  [0xF0, 0x10, 0xF0, 0x10, 0xF0] ++
  [0x90, 0x90, 0xF0, 0x10, 0x10] ++
  [0xF0, 0x80, 0xF0, 0x10, 0xF0] ++
  [0xF0, 0x80, 0xF0, 0x90, 0xF0] ++
  [0xF0, 0x10, 0x20, 0x40, 0x40] ++
  [0xF0, 0x90, 0xF0, 0x90, 0xF0] ++
  [0xF0, 0x90, 0xF0, 0x10, 0xF0] ++
  [0xF0, 0x90, 0xF0, 0x90, 0x90] ++
  [0xE0, 0x90, 0xE0, 0x90, 0xE0] ++
  [0xF0, 0x80, 0x80, 0x80, 0xF0] ++
  [0xE0, 0x90, 0x90, 0x90, 0xE0] ++
  [0xF0, 0x80, 0xF0, 0x80, 0xF0] ++
  [0xF0, 0x80, 0xF0, 0x80, 0x80]

/-- What a byte of memory holds after reset (R40): the font table at 0x000 to 0x04F, 0 above it. This is what an address
that the memory does not list reads as. -/
def resetByte (a : Nat) : Byte := font.getD a 0

end Sys2Proof.Machine
end

