-- ==== Sys2Proof/Machine/State.lean ====
section
/-!
DEFINITION. The machine's state (spec/10_state.md R20, closed by R34), the reasons a step can stop, the reports a step can
carry, and the state after reset (R40).
-/
namespace Sys2Proof.Machine

/-- The bytes of `memory` (R33, R60) that differ from what they hold after reset, as (address, byte) pairs in strictly
rising order of address. What an unlisted address reads as is `resetByte` (Machine/Params.lean); the form is `Memory.wf`
(Machine/Ops.lean). -/
abbrev Memory := List Host.Cell

/-- The framebuffer (R32): 32 rows of 64 cells; `display[r*64 + c]` is the cell of row `r` and column `c`. A cell is a
Boolean because it never holds a value other than 0 or 1 (log 17). -/
abbrev Display := Vector (Vector Bool 64) 32

/-- The whole state of the hardware: the aggregate the source calls `CpuState`, exactly the ten fields of R20 and no other
(R34). The spec's step on it, with the drawn byte as an argument (R36), is `CpuState.step` (Machine/Policy.lean). -/
structure CpuState where
  /-- `memory` (R33). -/
  mem : Memory
  /-- The program counter (R24): between steps, the address of the next instruction. -/
  pc : Word
  /-- The index register (R28). -/
  i : Word
  /-- The general registers `v[0]` to `v[15]` (R21); `v[0xF]` is the flag register (R22). -/
  v : Vector Byte 16
  /-- The call stack's entries (R29). -/
  stack : Vector Word 16
  /-- The stack pointer (R29): the number of entries in use, 0 to 16. -/
  sp : Fin 17
  /-- The delay timer (R30). -/
  delayTimer : Byte
  /-- The sound timer (R30). -/
  soundTimer : Byte
  /-- The key levels, true when pressed (R31). -/
  keys : Vector Bool 16
  /-- The framebuffer (R32). -/
  display : Display
  deriving DecidableEq, Repr

/-- What the host's interface steps: the hardware's state and, beside it, the model's own supply of drawn bytes. A step of
that interface has no argument for the byte Cxnn draws, so its n-th draw is the free value `Config.drawByte n` (log 6). -/
structure State extends CpuState where
  /-- Not the hardware's (R20, R36): how many bytes the run has drawn, the argument of `Config.drawByte` (log 6). -/
  draws : Nat
  deriving DecidableEq, Repr

/-- A state of the hardware as an argument of the operations on `State` that do not draw; what `draws` holds plays no part. -/
def CpuState.toState (c : CpuState) : State := ⟨c, 0⟩

/-- The faults (R214): outcomes of a step with no successor state. Each is safe: it stops the model where the source gives
the core no meaning (log 2, log 3). -/
inductive Fault where
  /-- `FetchAddressFault`: raised by the fetch of any step when `pc` is above 4094; holds `pc` (R66). Safe (log 2). -/
  | fetchAddress (pc : Word)
  /-- `DataAddressFault`: raised by Dxyn with n > 0, Fx33, Fx55 and Fx65 when the highest address is above 4095; holds
  `max(i, 4096)` (R67). Safe (log 2). -/
  | dataAddress (addr : Nat)
  /-- `KeyIndexFault`: raised by Ex9E and ExA1 when `v[x]` is above 15; holds `v[x]` (R193). Safe (log 3). -/
  | keyIndex (code : Byte)
  deriving DecidableEq, Repr

/-- The refusals of a step. -/
inductive Refusal where
  /-- An instruction without a meaning. No arm of `exec` raises it: every instruction has its meaning. Safe. -/
  | notModelled (mnemonic : String)
  deriving DecidableEq, Repr

/-- The non-fatal conditions a completed step can report (R210). A report is an output of the step and no state (R212,
log 7). -/
inductive Report where
  /-- A 2nnn with `sp` = 16. -/
  | stackOverflow
  /-- A 00EE with `sp` = 0. -/
  | stackUnderflow
  /-- A word that matches no pattern. -/
  | unknownOpcode
  deriving DecidableEq, Repr

/-- The state after reset (R40). The source states the memory; `pc` = 0x200 and the zeros are the spec's decision D11
(DESIGN CHOICE, log 5; unsafe), `draws` is the model's own (log 6). -/
def State.reset : State where
  mem := []
  pc := 0x200
  i := 0
  v := Vector.replicate 16 0
  stack := Vector.replicate 16 0
  sp := 0
  delayTimer := 0
  soundTimer := 0
  keys := Vector.replicate 16 false
  display := Vector.replicate 32 (Vector.replicate 64 false)
  draws := 0

end Sys2Proof.Machine
end

