-- ==== Sys2Proof/Machine/Ops.lean ====
section
/-!
DEFINITION. The named operations over memory and state (spec/00_scope.md R11), each in one place: byte reads and writes,
the out-of-range check, register access, the fetch, the call stack, and what an unrecognized word does.

TAKING AN EXCEPTION: the hardware has none to take. It has no trap entry, no trap return, no vector and no mode (R217 to
R221). What stands in its place are the three reported conditions of R210, each a completed step with a next state: the
operations `pushReturn`, `popReturn` and `unknownOpcode` below give the pair (next state, report) of R212.
-/
namespace Sys2Proof.Machine

/-! ### Memory (20_memory.md R60 to R65) -/

/-- The byte listed for an address, if any. -/
def Memory.find : Memory → Nat → Option Byte
  | [], _ => none
  | (k, b) :: m, a => if k = a then some b else Memory.find m a

/-- `MemRead(addr, 1)` (R63). -/
def Memory.read (m : Memory) (a : Nat) : Byte := (Memory.find m a).getD (resetByte a)

/-- List a byte for an address, in its place in the rising order. -/
def Memory.insert : Memory → Nat → Byte → Memory
  | [], a, b => [(a, b)]
  | (k, c) :: m, a, b =>
    if a < k then (a, b) :: (k, c) :: m
    else if a = k then (a, b) :: m
    else (k, c) :: Memory.insert m a b

/-- `MemWrite(addr, 1, val)` (R65). Writing what an unlisted address reads as removes the entry, so equal memories are
equal lists. -/
def Memory.write (m : Memory) (a : Nat) (b : Byte) : Memory :=
  if b = resetByte a then m.filter (fun c => c.1 ≠ a) else Memory.insert m a b

/-- `MemRead(addr, 2)` (R64): the byte at the lower address is the high byte of the word. -/
def Memory.readWord (m : Memory) (a : Nat) : Word := wordOfBytes (Memory.read m a) (Memory.read m (a + 1))

/-- The canonical form: addresses strictly rising, all inside the 4096 bytes of R60, and no entry equal to what an
unlisted address reads as. -/
abbrev Memory.wf (m : Memory) : Prop :=
  m.Pairwise (fun c d => c.1 < d.1) ∧ ∀ c ∈ m, c.1 < 4096 ∧ c.2 ≠ resetByte c.1

/-- The byte address presented to memory (R67; R78 under the policy `wrap`). -/
def byteAddr : OorPolicy → Nat → Nat
  | .fault, a => a
  | .wrap, a => a % Config.memSize

/-- The check that comes before a data access of `len` bytes at `base` (R67): the fault, if the highest address
`base + len - 1` is above 4095. Nothing is checked for a length of 0 (R182) or under the policy `wrap` (R78). -/
def rangeFault : OorPolicy → Word → Nat → Option Fault
  | .fault, base, len =>
    if 0 < len ∧ 4095 < base.toNat + len - 1 then some (.dataAddress (max base.toNat Config.memSize)) else none
  | .wrap, _, _ => none

/-- `n` single-byte writes at `base`, `base + 1`, ..., ascending (R70): byte `k` is `f k`. -/
def storeSeq (p : OorPolicy) (base : Nat) (f : Nat → Byte) : Nat → Memory → Memory
  | 0, m => m
  | n + 1, m => Memory.write (storeSeq p base f n m) (byteAddr p (base + n)) (f n)

/-- The byte `k` above `base` (R176: the address is `base + k`, never reduced but by `wrap`). -/
def loadByte (p : OorPolicy) (m : Memory) (base k : Nat) : Byte := Memory.read m (byteAddr p (base + k))

/-! ### Registers (10_state.md R21 to R30) -/

/-- Read of general register `x` (R21: none is hardwired). -/
def State.reg (s : State) (x : RegIdx) : Byte := s.v[x.val]
/-- Write of general register `x` (R21). -/
def State.setReg (s : State) (x : RegIdx) (b : Byte) : State := { s with v := s.v.set x.val b }
/-- The flag register `v[0xF]` (R22). -/
def flagReg : RegIdx := 15
/-- Write of the flag register (R22). -/
def State.setFlag (s : State) (b : Byte) : State := s.setReg flagReg b
/-- Write of the program counter. -/
def State.setPc (s : State) (a : Word) : State := { s with pc := a }
/-- Write of the index register. -/
def State.setI (s : State) (a : Word) : State := { s with i := a }
/-- Write of the delay timer. -/
def State.setDelayTimer (s : State) (b : Byte) : State := { s with delayTimer := b }
/-- Write of the sound timer. -/
def State.setSoundTimer (s : State) (b : Byte) : State := { s with soundTimer := b }
/-- Replacement of the memory. -/
def State.setMem (s : State) (m : Memory) : State := { s with mem := m }
/-- Replacement of the framebuffer. -/
def State.setDisplay (s : State) (d : Display) : State := { s with display := d }

/-- Another supply of draws (log 6). -/
def State.setDraws (s : State) (n : Nat) : State := { s with draws := n }

/-- `pc <- pc + 2`: the advance of the fetch (R90) and of a taken skip (R134). -/
def State.advance (s : State) : State := s.setPc (s.pc + 2)
/-- `pc <- pc - 2`: the rewind of Fx0A (R192). -/
def State.rewind (s : State) : State := s.setPc (s.pc - 2)
/-- `pc <- pc + 2` when the condition of a skip holds (R134). -/
def State.skipIf (s : State) (c : Bool) : State := if c then s.advance else s

/-- Register `k`, for a count `k` that runs over the registers (0 above 15, where no count of an instruction goes). -/
def State.regAt (s : State) (k : Nat) : Byte := if h : k < 16 then s.reg ⟨k, h⟩ else 0
/-- Write of register `k`, for a count `k` (nothing above 15). -/
def State.setRegAt (s : State) (k : Nat) (b : Byte) : State := if h : k < 16 then s.setReg ⟨k, h⟩ b else s
/-- `v[k] <- f k` for the first `n` registers, ascending (R175). -/
def State.loadSeq (f : Nat → Byte) : Nat → State → State
  | 0, s => s
  | n + 1, s => (State.loadSeq f n s).setRegAt n (f n)

/-- `draw8()` (R142) where the draw is not an argument of the step: the next free byte, and the state in which the next
draw is a fresh one (log 6). -/
def State.draw8 (s : State) : Byte × State := (Config.drawByte s.draws, { s with draws := s.draws + 1 })

/-! ### The fetch (30_encoding.md R90) -/

/-- The fetch under a policy: `FetchAddressFault` when `pc` is above 4094 (R66), or, under `wrap`, the word at `pc` modulo
4096 and the address after it modulo 4096 (R78). -/
def fetchWith : OorPolicy → State → Except Fault Word
  | .fault, s => if 4094 < s.pc.toNat then .error (.fetchAddress s.pc) else .ok (Memory.readWord s.mem s.pc.toNat)
  | .wrap, s =>
    .ok (wordOfBytes (Memory.read s.mem (s.pc.toNat % Config.memSize)) (Memory.read s.mem ((s.pc.toNat + 1) % Config.memSize)))

/-- The fetch of this machine. -/
def fetch (s : State) : Except Fault Word := fetchWith oorPolicy s

/-! ### The call stack (10_state.md R29) and the reported conditions (60_exceptions.md R210) -/

/-- `CallStack.push` (R122): on a full stack nothing is stored and `StackOverflow` is reported. -/
def pushReturn (a : Word) (s : State) : State × Option Report :=
  if h : s.sp.val < 16 then
    ({ s with stack := s.stack.set s.sp.val a, sp := ⟨s.sp.val + 1, by omega⟩ }, none)
  else (s, some .stackOverflow)

/-- `pc = CallStack.pop()` (R120): on an empty stack nothing changes and `StackUnderflow` is reported. The popped entry is
not erased (R29). -/
def popReturn (s : State) : State × Option Report :=
  if h : 0 < s.sp.val then
    ({ s with sp := ⟨s.sp.val - 1, by omega⟩, pc := s.stack[s.sp.val - 1] }, none)
  else (s, some .stackUnderflow)

/-- The effect of an unrecognized word on the post-fetch state (R98): none, and `UnknownOpcode` is reported. -/
def unknownOpcode (s : State) : State × Option Report := (s, some .unknownOpcode)

/-- The next-state outcome of a (state, report) pair; the report is given by `report` (Machine/Reports.lean). -/
def completed (p : State × Option Report) : Host.Outcome State Fault Refusal := .next p.1

end Sys2Proof.Machine
end

