-- ==== Sys2Proof/Machine/Operands.lean ====
section
/-!
DEFINITION. The operand forms of the instructions (spec/30_encoding.md R94, spec/44_index_and_memory.md R176,
spec/45_display.md R181, spec/46_keypad.md R193).
-/
namespace Sys2Proof.Machine

/-- `zext_16(nnn)`: an address literal written to `pc` or `i` (R94). -/
def addrOperand (nnn : Addr12) : Word := nnn.zeroExtend 16

/-- `zext_16(b)`: a byte used in 16-bit arithmetic (R94). -/
def byteOperand (b : Byte) : Word := b.zeroExtend 16

/-- The target of Bnnn (R123): `v[0] + nnn`, not reduced. -/
def offsetTarget (s : State) (nnn : Addr12) : Word := byteOperand (s.reg 0) + addrOperand nnn

/-- How many registers Fx55 and Fx65 move: `v[0]` to `v[x]` (R174, R175). -/
def regCount (x : RegIdx) : Nat := x.val + 1

/-- The address of glyph `b` (R172): `b * 5`, the whole byte unmasked (D25). -/
def glyphAddr (b : Byte) : Word := byteOperand b * BitVec.ofNat 16 Config.glyphSize

/-- The decimal digits of a byte (R173): hundreds, tens and ones, for k = 0, 1, 2. -/
def decimalDigit (b : Byte) : Nat → Byte
  | 0 => BitVec.ofNat 8 (b.toNat / 100)
  | 1 => BitVec.ofNat 8 (b.toNat / 10 % 10)
  | _ => BitVec.ofNat 8 (b.toNat % 10)

/-- The level of the key named by a whole byte (R193): above 15, what the policy says. -/
def keyOperand (p : KeyIndexPolicy) (s : State) (b : Byte) : Except Fault Bool :=
  if h : b.toNat < 16 then .ok s.keys[b.toNat]
  else
    match p with
    | .fault => .error (.keyIndex b)
    | .mask => .ok (s.keys[b.toNat % 16]'(Nat.mod_lt _ (by decide)))
    | .released => .ok false

/-- The least key that is down, if any (R192). -/
def lowestKey (s : State) : Option Nat := s.keys.toList.findIdx? id

/-- The row a sprite line lands in (R181): wrap modulo 32. -/
def spriteRow (cy : Byte) (line : Nat) : Fin 32 := ⟨(cy.toNat + line) % 32, Nat.mod_lt _ (by decide)⟩

/-- The column a sprite bit lands in (R181): wrap modulo 64. -/
def spriteCol (cx : Byte) (bit : Nat) : Fin 64 := ⟨(cx.toNat + bit) % 64, Nat.mod_lt _ (by decide)⟩

/-- Bit `bit` of a sprite byte, 0 the most significant (R181). -/
def spriteBit (b : Byte) (bit : Nat) : Bool := b.getLsbD (7 - bit)

end Sys2Proof.Machine
end

