-- ==== Sys2Proof/Machine/Alu.lean ====
section
/-!
DEFINITION. Register-to-register ALU: 8xy0 to 8xy7, 8xyE (spec/43_alu.md). 8xy4, 8xy5 and 8xy7 read both operands, write
`v[x]`, then `v[0xF]`; 8xy6 and 8xyE write `v[0xF]`, then `v[x]` from what it holds by then (R160; log 9).
-/
namespace Sys2Proof.Machine

/-- Result, then flag (R160): the order of 8xy4, 8xy5 and 8xy7. -/
def State.setResultThenFlag (s : State) (x : RegIdx) (r flag : Byte) : State := (s.setReg x r).setFlag flag

/-- 8xy0 (R150). -/
def execLdReg (x y : RegIdx) (s : State) : Host.Outcome State Fault Refusal := .next (s.setReg x (s.reg y))

/-- 8xy1 (R151): `v[0xF]` untouched (R161). -/
def execOrReg (x y : RegIdx) (s : State) : Host.Outcome State Fault Refusal := .next (s.setReg x (s.reg x ||| s.reg y))

/-- 8xy2 (R152): `v[0xF]` untouched (R161). -/
def execAndReg (x y : RegIdx) (s : State) : Host.Outcome State Fault Refusal := .next (s.setReg x (s.reg x &&& s.reg y))

/-- 8xy3 (R153): `v[0xF]` untouched (R161). -/
def execXorReg (x y : RegIdx) (s : State) : Host.Outcome State Fault Refusal := .next (s.setReg x (s.reg x ^^^ s.reg y))

/-- 8xy4 (R154). -/
def execAddReg (x y : RegIdx) (s : State) : Host.Outcome State Fault Refusal :=
  .next (s.setResultThenFlag x (s.reg x + s.reg y) (carryFlag (s.reg x) (s.reg y)))

/-- 8xy5 (R155). -/
def execSub (x y : RegIdx) (s : State) : Host.Outcome State Fault Refusal :=
  .next (s.setResultThenFlag x (s.reg x - s.reg y) (noBorrowFlag (s.reg x) (s.reg y)))

/-- 8xy6 (R156): the second statement sees the first's write; `y` is ignored. -/
def execShr (x _y : RegIdx) (s : State) : Host.Outcome State Fault Refusal :=
  let s1 := s.setFlag (shiftRightFlag (s.reg x))
  .next (s1.setReg x (s1.reg x >>> 1))

/-- 8xy7 (R157). -/
def execSubn (x y : RegIdx) (s : State) : Host.Outcome State Fault Refusal :=
  .next (s.setResultThenFlag x (s.reg y - s.reg x) (noBorrowFlag (s.reg y) (s.reg x)))

/-- 8xyE (R158): the second statement sees the first's write; `y` is ignored. -/
def execShl (x _y : RegIdx) (s : State) : Host.Outcome State Fault Refusal :=
  let s1 := s.setFlag (shiftLeftFlag (s.reg x))
  .next (s1.setReg x (s1.reg x <<< 1))

end Sys2Proof.Machine
end

