-- ==== Sys2Proof/Machine/Control.lean ====
section
/-!
DEFINITION. Control transfer: 00EE, 1nnn, 2nnn, Bnnn (spec/40_control_transfer.md). Each meaning acts on the post-fetch
state.
-/
namespace Sys2Proof.Machine

/-- The effect and the report of 00EE (R120). -/
def retEffect (s : State) : State × Option Report := popReturn s

/-- The effect and the report of 2nnn (R122): the post-fetch `pc` is pushed, and the jump is taken in both cases
(90_conflicts.md C3; log 10). -/
def callEffect (nnn : Addr12) (s : State) : State × Option Report :=
  let p := pushReturn s.pc s
  (p.1.setPc (addrOperand nnn), p.2)

/-- 00EE (R120). -/
def execRet (s : State) : Host.Outcome State Fault Refusal := completed (retEffect s)

/-- 1nnn (R121). -/
def execJp (nnn : Addr12) (s : State) : Host.Outcome State Fault Refusal := .next (s.setPc (addrOperand nnn))

/-- 2nnn (R122). -/
def execCall (nnn : Addr12) (s : State) : Host.Outcome State Fault Refusal := completed (callEffect nnn s)

/-- Bnnn (R123). -/
def execJpV0 (nnn : Addr12) (s : State) : Host.Outcome State Fault Refusal := .next (s.setPc (offsetTarget s nnn))

end Sys2Proof.Machine
end

