-- ==== Sys2Proof/Machine/Draw.lean ====
section
/-!
DEFINITION. Display: 00E0, Dxyn (spec/45_display.md).
-/
namespace Sys2Proof.Machine

/-- The cell of a row and a column (R32). -/
def Display.cell (d : Display) (r : Fin 32) (c : Fin 64) : Bool := d[r.val][c.val]

/-- `display[k] <- display[k] ^ 1` for the cell of a row and a column (R181). -/
def Display.flip (d : Display) (r : Fin 32) (c : Fin 64) : Display :=
  d.set r.val (d[r.val].set c.val (!Display.cell d r c))

/-- The clear framebuffer (R180). -/
def Display.clear : Display := Vector.replicate 32 (Vector.replicate 64 false)

/-- A framebuffer in the middle of a draw, with the collision found so far. -/
abbrev Drawing := Display × Bool

/-- One set sprite bit (R181): the collision is recorded if the cell was set, and the cell is flipped. -/
def drawCell (r : Fin 32) (c : Fin 64) (a : Drawing) : Drawing :=
  (Display.flip a.1 r c, a.2 || Display.cell a.1 r c)

/-- The first `n` bits of a sprite byte, most significant first (R181); a source bit 0 leaves its cell alone. -/
def drawBits (b cx cy : Byte) (line : Nat) : Nat → Drawing → Drawing
  | 0, a => a
  | n + 1, a =>
    let a' := drawBits b cx cy line n a
    if spriteBit b n then drawCell (spriteRow cy line) (spriteCol cx n) a' else a'

/-- The first `n` lines of a sprite, line `k` the byte `rows k` (R181). -/
def drawLines (rows : Nat → Byte) (cx cy : Byte) : Nat → Drawing → Drawing
  | 0, a => a
  | n + 1, a => drawBits (rows n) cx cy n 8 (drawLines rows cx cy n a)

/-- Dxyn (R181, R182) under a policy: coordinates are read first (D27), the collision starts at 0, and nothing is written
if the check of R67 fails. -/
def drawSprite (p : OorPolicy) (x y : RegIdx) (n : Nibble) (s : State) : Host.Outcome State Fault Refusal :=
  match rangeFault p s.i n.toNat with
  | some f => .fault f
  | none =>
    let a := drawLines (loadByte p s.mem s.i.toNat) (s.reg x) (s.reg y) n.toNat (s.display, false)
    .next ((s.setDisplay a.1).setFlag (flagByte a.2))

/-- 00E0 (R180). -/
def execCls (s : State) : Host.Outcome State Fault Refusal := .next (s.setDisplay Display.clear)

/-- Dxyn (R181). -/
def execDrw (x y : RegIdx) (n : Nibble) (s : State) : Host.Outcome State Fault Refusal := drawSprite oorPolicy x y n s

end Sys2Proof.Machine
end

