-- ==== Sys2Proof/Machine/IndexMemory.lean ====
section
/-!
DEFINITION. Index register and memory: Annn, Fx1E, Fx29, Fx33, Fx55, Fx65 (spec/44_index_and_memory.md). The check of R67
comes before anything is written.
-/
namespace Sys2Proof.Machine

/-- Annn (R170). -/
def execLdI (nnn : Addr12) (s : State) : Host.Outcome State Fault Refusal := .next (s.setI (addrOperand nnn))

/-- Fx1E (R171): modulo 65536, no flag. -/
def execAddI (x : RegIdx) (s : State) : Host.Outcome State Fault Refusal := .next (s.setI (s.i + byteOperand (s.reg x)))

/-- Fx29 (R172). -/
def execLdF (x : RegIdx) (s : State) : Host.Outcome State Fault Refusal := .next (s.setI (glyphAddr (s.reg x)))

/-- Fx33 (R173) under a policy. -/
def storeDigits (p : OorPolicy) (x : RegIdx) (s : State) : Host.Outcome State Fault Refusal :=
  match rangeFault p s.i 3 with
  | some f => .fault f
  | none => .next (s.setMem (storeSeq p s.i.toNat (decimalDigit (s.reg x)) 3 s.mem))

/-- Fx55 (R174) under a policy: `i` advances past the last byte. -/
def storeRegs (p : OorPolicy) (x : RegIdx) (s : State) : Host.Outcome State Fault Refusal :=
  match rangeFault p s.i (regCount x) with
  | some f => .fault f
  | none =>
    .next ((s.setMem (storeSeq p s.i.toNat s.regAt (regCount x) s.mem)).setI (s.i + BitVec.ofNat 16 (regCount x)))

/-- Fx65 (R175) under a policy: `i` is not changed. -/
def loadRegs (p : OorPolicy) (x : RegIdx) (s : State) : Host.Outcome State Fault Refusal :=
  match rangeFault p s.i (regCount x) with
  | some f => .fault f
  | none => .next (State.loadSeq (loadByte p s.mem s.i.toNat) (regCount x) s)

/-- Fx33 (R173). -/
def execLdB (x : RegIdx) (s : State) : Host.Outcome State Fault Refusal := storeDigits oorPolicy x s

/-- Fx55 (R174). -/
def execStRegs (x : RegIdx) (s : State) : Host.Outcome State Fault Refusal := storeRegs oorPolicy x s

/-- Fx65 (R175). -/
def execLdRegs (x : RegIdx) (s : State) : Host.Outcome State Fault Refusal := loadRegs oorPolicy x s

end Sys2Proof.Machine
end

