-- ==== Sys2Proof/Machine/Keypad.lean ====
section
/-!
DEFINITION. Keypad: Ex9E, ExA1, Fx0A (spec/46_keypad.md).
-/
namespace Sys2Proof.Machine

/-- A keypad skip under a policy (R190, R191): taken when the key's level is `level`. -/
def skipOnKey (p : KeyIndexPolicy) (level : Bool) (x : RegIdx) (s : State) : Host.Outcome State Fault Refusal :=
  match keyOperand p s (s.reg x) with
  | .error f => .fault f
  | .ok down => .next (s.skipIf (down == level))

/-- Ex9E (R190). -/
def execSkp (x : RegIdx) (s : State) : Host.Outcome State Fault Refusal := skipOnKey keyIndexPolicy true x s

/-- ExA1 (R191). -/
def execSknp (x : RegIdx) (s : State) : Host.Outcome State Fault Refusal := skipOnKey keyIndexPolicy false x s

/-- Fx0A (R192): no key down rewinds `pc` to this instruction, which is the whole wait; else the least key is stored. -/
def execLdVxK (x : RegIdx) (s : State) : Host.Outcome State Fault Refusal :=
  match lowestKey s with
  | none => .next s.rewind
  | some k => .next (s.setReg x (BitVec.ofNat 8 k))

end Sys2Proof.Machine
end

