-- ==== Sys2Proof/Machine/Literal.lean ====
section
/-!
DEFINITION. Register and literal: 6xnn, 7xnn, Cxnn (spec/42_register_immediate.md).
-/
namespace Sys2Proof.Machine

/-- 6xnn (R140). -/
def execLdImm (x : RegIdx) (nn : Byte) (s : State) : Host.Outcome State Fault Refusal := .next (s.setReg x nn)

/-- 7xnn (R141): no carry is written. -/
def execAddImm (x : RegIdx) (nn : Byte) (s : State) : Host.Outcome State Fault Refusal :=
  .next (s.setReg x (s.reg x + nn))

/-- The effect of Cxnn (R142) with the drawn byte `rnd`, the input of the step (R36, R90). -/
def rndEffect (rnd : Byte) (x : RegIdx) (nn : Byte) (s : State) : State := s.setReg x (rnd &&& nn)

/-- Cxnn (R142) in the host's interface: the drawn byte is the next free value (log 6). -/
def execRnd (x : RegIdx) (nn : Byte) (s : State) : Host.Outcome State Fault Refusal :=
  .next (rndEffect s.draw8.1 x nn s.draw8.2)

end Sys2Proof.Machine
end

