-- ==== Sys2Proof/Machine/Timers.lean ====
section
/-!
DEFINITION. Timer access: Fx07, Fx15, Fx18 (spec/47_timers.md; which code does which copy is log 8).
-/
namespace Sys2Proof.Machine

/-- Fx07 (R200). -/
def execLdVxDt (x : RegIdx) (s : State) : Host.Outcome State Fault Refusal := .next (s.setReg x s.delayTimer)

/-- Fx15 (R201). -/
def execLdDtVx (x : RegIdx) (s : State) : Host.Outcome State Fault Refusal := .next (s.setDelayTimer (s.reg x))

/-- Fx18 (R202). -/
def execLdStVx (x : RegIdx) (s : State) : Host.Outcome State Fault Refusal := .next (s.setSoundTimer (s.reg x))

end Sys2Proof.Machine
end

