-- ==== Sys2Proof/Machine/Reports.lean ====
section
/-!
DEFINITION. The report a step carries (spec/60_exceptions.md R210 to R212): an output of the step, a function of the state
before it, and no state (log 7). Only 00EE, 2nnn and an unrecognized word have one (R215).
-/
namespace Sys2Proof.Machine

/-- The report of an instruction executed on the post-fetch state (R210, R215). -/
def report (i : Instr) (s : State) : Option Report :=
  match i with
  | .ret => (retEffect s).2
  | .call nnn => (callEffect nnn s).2
  | .cls | .jp _ | .seImm _ _ | .sneImm _ _ | .seReg _ _ | .ldImm _ _ | .addImm _ _ | .ldReg _ _ | .orReg _ _
  | .andReg _ _ | .xorReg _ _ | .addReg _ _ | .sub _ _ | .shr _ _ | .subn _ _ | .shl _ _ | .sneReg _ _ | .ldI _
  | .jpV0 _ | .rnd _ _ | .drw _ _ _ | .skp _ | .sknp _ | .ldVxDt _ | .ldVxK _ | .ldDtVx _ | .ldStVx _ | .addI _
  | .ldF _ | .ldB _ | .stRegs _ | .ldRegs _ => none

/-- The report of the step that begins in this state; none when the fetch faults (R214). -/
def stepReport (s : State) : Option Report :=
  match fetch s with
  | .error _ => none
  | .ok w =>
    match decode w with
    | .ok i => report i s.advance
    | .error _ => (unknownOpcode s.advance).2

/-- The spec's numbers for the reports (R211; D18); 0 is no report. No instruction reads them. -/
def reportCode : Option Report → Nat
  | none => 0
  | some .stackOverflow => 1
  | some .stackUnderflow => 2
  | some .unknownOpcode => 3

end Sys2Proof.Machine
end

