-- ==== Sys2Proof/Machine/Step.lean ====
section
/-!
DEFINITION. One step of the Dispatcher (spec/30_encoding.md R90): fetch, advance, decode, effect. An unrecognized word
completes with a next state (R98). A fault keeps nothing of the step, not even the advance (R214).
-/
namespace Sys2Proof.Machine

/-- `step()` (R90). -/
def step (s : State) : Host.Outcome State Fault Refusal :=
  match fetch s with
  | .error f => .fault f
  | .ok w =>
    match decode w with
    | .ok i => exec i s.advance
    | .error _ => completed (unknownOpcode s.advance)

/-- The step with its report: the pair (next state, report or none) of R212. -/
def stepReported (s : State) : Host.Outcome (State × Option Report) Fault Refusal :=
  match step s with
  | .next t => .next (t, stepReport s)
  | .fault f => .fault f
  | .refused r => .refused r

/-- `s` with the instruction whose first `nbits` bits are `w` (spec/opcode_table.json's numbering) stored big-endian at
`pc`, where `step` fetches its next instruction (R24, R62). It stands for the host's load (log 14). -/
def State.withFetchWord (s : State) (nbits w : Nat) : State :=
  s.setMem (Memory.write (Memory.write s.mem s.pc.toNat (hiByte (tableWord nbits w))) (s.pc.toNat + 1)
    (loByte (tableWord nbits w)))

end Sys2Proof.Machine
end

