-- ==== Sys2Proof/Machine/Policy.lean ====
section
/-!
DEFINITION. The spec's step as R36, R90 and R212 give it: the open policies (spec/00_scope.md R8) and the drawn byte are
arguments, and the outcome is the pair of next state and report. Only the fetch and six instructions depend on the policies
(spec/20_memory.md R66, R67, R78; spec/46_keypad.md R193), and only Cxnn on the draw. `step` is this step at
`defaultPolicies` with a free byte as draw (Laws/Step.lean).
-/
namespace Sys2Proof.Machine

/-- The policies this machine takes (log 2, log 3). -/
def defaultPolicies : Policies := ⟨oorPolicy, keyIndexPolicy⟩

/-- Execute one instruction on the post-fetch state, under given policies and with a given draw. -/
def execWith (p : Policies) (rnd : Byte) (i : Instr) (s : State) : Host.Outcome State Fault Refusal :=
  match i with
  | .rnd x nn => .next (rndEffect rnd x nn s)
  | .drw x y n => drawSprite p.oor x y n s
  | .ldB x => storeDigits p.oor x s
  | .stRegs x => storeRegs p.oor x s
  | .ldRegs x => loadRegs p.oor x s
  | .skp x => skipOnKey p.keyIndex true x s
  | .sknp x => skipOnKey p.keyIndex false x s
  | .cls | .ret | .jp _ | .call _ | .seImm _ _ | .sneImm _ _ | .seReg _ _ | .ldImm _ _ | .addImm _ _ | .ldReg _ _
  | .orReg _ _ | .andReg _ _ | .xorReg _ _ | .addReg _ _ | .sub _ _ | .shr _ _ | .subn _ _ | .shl _ _ | .sneReg _ _
  | .ldI _ | .jpV0 _ | .ldVxDt _ | .ldVxK _ | .ldDtVx _ | .ldStVx _ | .addI _ | .ldF _ => exec i s

/-- An outcome with the report that a next state carries (R212). -/
def withReport (r : Option Report) : Host.Outcome State Fault Refusal → Host.Outcome (State × Option Report) Fault Refusal
  | .next t => .next (t, r)
  | .fault f => .fault f
  | .refused e => .refused e

/-- `step(rnd)` (R90) under given policies: the pair of R212. `draws` is neither read nor written. -/
def stepWith (p : Policies) (rnd : Byte) (s : State) : Host.Outcome (State × Option Report) Fault Refusal :=
  match fetchWith p.oor s with
  | .error f => .fault f
  | .ok w =>
    match decode w with
    | .ok i => withReport (report i s.advance) (execWith p rnd i s.advance)
    | .error _ => .next (unknownOpcode s.advance)

/-- The spec's step on the spec's state (R20, R36, R90, R212). -/
def CpuState.step (p : Policies) (rnd : Byte) (c : CpuState) : Host.Outcome (CpuState × Option Report) Fault Refusal :=
  match stepWith p rnd c.toState with
  | .next (t, r) => .next (t.toCpuState, r)
  | .fault f => .fault f
  | .refused e => .refused e

end Sys2Proof.Machine
end

