-- ==== Sys2Proof/Machine/HostActions.lean ====
section
/-!
DEFINITION. What the host does to the machine between steps (spec/60_exceptions.md R224 to R228, R233;
spec/70_reset_and_hazards.md R243), and the whole interface as one transition function over a session.
-/
namespace Sys2Proof.Machine

/-- One timer's decrement (R224): a timer at 0 stays 0. -/
def timerTick (b : Byte) : Byte := if 0 < b.toNat then b - 1 else b

/-- `tick()` (R224): each timer tests its own value. -/
def State.tick (s : State) : State :=
  (s.setDelayTimer (timerTick s.delayTimer)).setSoundTimer (timerTick s.soundTimer)

/-- `setKey(code, pressed)` (R225). A code above 15 has no move: the host is assumed not to pass one (log 20). -/
def State.setKey (s : State) (code : Fin 16) (pressed : Bool) : State := { s with keys := s.keys.set code.val pressed }

/-- `isPressed(code)` (R225). -/
def State.isPressed (s : State) (code : Fin 16) : Bool := s.keys[code.val]

/-- `anyPressed()` (R225). -/
def State.anyPressed (s : State) : Bool := s.keys.toList.any id

/-- `soundEnabled()` (R227): the audio gate. -/
def State.soundEnabled (s : State) : Bool := decide (0 < s.soundTimer.toNat)

/-- The host's view of the framebuffer (R226): 2048 bytes 0 or 1, row-major. -/
def State.displayView (s : State) : List Byte := (s.display.toList.map fun r => r.toList.map flagByte).flatten

/-- Why an action of the host is refused: the load failures of R213, and a load that comes too late. -/
inductive HostRefusal where
  /-- `ProgramTooLarge` (R213, R243): the image is longer than 3584 bytes; the interpreter never starts. -/
  | programTooLarge
  /-- `ProgramLoadFailed` (R213): the image could not be read; the same effect. -/
  | programLoadFailed
  /-- A load after the first step, or a second load: not described by the source (R243, D22). Safe (log 14). -/
  | lateLoad
  /-- A step that was itself refused; no step is. Safe. -/
  | step (r : Refusal)
  deriving DecidableEq, Repr

/-- `loadProgram(bytes)` (R243): nothing is written when the image is too large, and nothing is zero-filled. -/
def State.loadProgram (s : State) (image : List Byte) : Except HostRefusal State :=
  if Config.maxProg < image.length then .error .programTooLarge
  else .ok (s.setMem (storeSeq .fault Config.progBase (fun k => image.getD k 0) image.length s.mem))

/-- Construct and load: the state in which the first step runs (R243). -/
def boot (image : List Byte) : Except HostRefusal State := State.reset.loadProgram image

/-- Reset with another font table (R8, R41: `FONT` is a parameter); bytes beyond the 80 of the table are ignored. -/
def State.resetWithFont (glyphs : List Byte) : State :=
  State.reset.setMem (storeSeq .fault 0 (fun k => glyphs.getD k 0) 80 State.reset.mem)

/-- The host's actions (R228, R233). -/
inductive Action where
  /-- `loadProgram`; `none` when the image could not be read (R213). -/
  | load (image : Option (List Byte))
  /-- `step(rnd)`, with the byte that it may draw (R36, R90). -/
  | step (rnd : Byte)
  /-- `tick()`. -/
  | tick
  /-- `setKey(code, pressed)`. -/
  | setKey (code : Fin 16) (pressed : Bool)
  deriving DecidableEq, Repr

/-- An interpreter instance and whether a load may still come. That it comes once, before the first step, is the spec's
decision D22 (R243; log 14). -/
structure Session where
  mayLoad : Bool
  state : CpuState
  deriving DecidableEq, Repr

/-- A freshly constructed instance (R240) with a given font table. -/
def Session.startWith (glyphs : List Byte) : Session := ⟨true, (State.resetWithFont glyphs).toCpuState⟩

/-- A freshly constructed instance (R240). -/
def Session.start : Session := ⟨true, State.reset.toCpuState⟩

/-- One action of the host (R228), atomic, with the report it carries (R212). The policies are an argument (R36). -/
def Session.act (p : Policies) (a : Action) (q : Session) : Host.Outcome (Session × Option Report) Fault HostRefusal :=
  match a with
  | .load image =>
    if q.mayLoad then
      match image with
      | none => .refused .programLoadFailed
      | some bytes =>
        match q.state.toState.loadProgram bytes with
        | .ok t => .next (⟨false, t.toCpuState⟩, none)
        | .error e => .refused e
    else .refused .lateLoad
  | .step rnd =>
    match q.state.step p rnd with
    | .next (t, r) => .next (⟨false, t⟩, r)
    | .fault f => .fault f
    | .refused r => .refused (.step r)
  | .tick => .next (⟨q.mayLoad, q.state.toState.tick.toCpuState⟩, none)
  | .setKey code pressed => .next (⟨q.mayLoad, (q.state.toState.setKey code pressed).toCpuState⟩, none)

/-- A run: a schedule of actions in order, with the reports they carried (R228: every interleaving is a schedule). The
policies, the draws, the image and the schedule are its arguments (R36). A fault ends the run (R214). -/
def Session.run (p : Policies) : List Action → Session → Host.Outcome (Session × List Report) Fault HostRefusal
  | [], q => .next (q, [])
  | a :: rest, q =>
    match Session.act p a q with
    | .fault f => .fault f
    | .refused e => .refused e
    | .next (q', r) =>
      match Session.run p rest q' with
      | .next (q'', rs) => .next (q'', r.toList ++ rs)
      | .fault f => .fault f
      | .refused e => .refused e

end Sys2Proof.Machine
end

