-- ==== Sys2Proof/Safety.lean ====
section
/-!
DEFINITION. The terms claims are stated in: the pieces of state one by one (for frames), what each instruction may write
(spec/10_state.md R23, R25, R35), the invariant of R42, and when an instruction faults (spec/60_exceptions.md R214).
-/
namespace Sys2Proof.Machine

/-- One piece of the state (R20), down to a register, a stack entry, a key, a cell and a byte of memory. -/
inductive Piece where
  | pc
  | i
  | reg (x : RegIdx)
  | sp
  | stackEntry (k : Fin 16)
  | delayTimer
  | soundTimer
  | key (k : Fin 16)
  | cell (r : Fin 32) (c : Fin 64)
  | byte (a : Nat)
  | draws
  deriving DecidableEq, Repr

/-- What a piece of the state holds, as a number. -/
def State.piece (s : State) : Piece → Nat
  | .pc => s.pc.toNat
  | .i => s.i.toNat
  | .reg x => (s.reg x).toNat
  | .sp => s.sp.val
  | .stackEntry k => s.stack[k.val].toNat
  | .delayTimer => s.delayTimer.toNat
  | .soundTimer => s.soundTimer.toNat
  | .key k => (s.isPressed k).toNat
  | .cell r c => (Display.cell s.display r c).toNat
  | .byte a => (Memory.read s.mem a).toNat
  | .draws => s.draws

/-- `t` holds what `s` holds in every piece but those of `w`. -/
def SameBut (w : Piece → Prop) (s t : State) : Prop := ∀ p, ¬ w p → t.piece p = s.piece p

/-- The pieces an instruction may write when it is executed on the post-fetch state `s` (R22, R23, R25, R35). A store's
bytes are those from `i`: the address the store of R173 and R174 computes. -/
def mayWrite (i : Instr) (s : State) : Piece → Prop :=
  match i with
  | .cls => fun p => ∃ r c, p = .cell r c
  | .ret => fun p => p = .pc ∨ p = .sp
  | .jp _ => fun p => p = .pc
  | .call _ => fun p => p = .pc ∨ p = .sp ∨ ∃ h : s.sp.val < 16, p = .stackEntry ⟨s.sp.val, h⟩
  | .seImm _ _ => fun p => p = .pc
  | .sneImm _ _ => fun p => p = .pc
  | .seReg _ _ => fun p => p = .pc
  | .ldImm x _ => fun p => p = .reg x
  | .addImm x _ => fun p => p = .reg x
  | .ldReg x _ => fun p => p = .reg x
  | .orReg x _ => fun p => p = .reg x
  | .andReg x _ => fun p => p = .reg x
  | .xorReg x _ => fun p => p = .reg x
  | .addReg x _ => fun p => p = .reg x ∨ p = .reg 15
  | .sub x _ => fun p => p = .reg x ∨ p = .reg 15
  | .shr x _ => fun p => p = .reg x ∨ p = .reg 15
  | .subn x _ => fun p => p = .reg x ∨ p = .reg 15
  | .shl x _ => fun p => p = .reg x ∨ p = .reg 15
  | .sneReg _ _ => fun p => p = .pc
  | .ldI _ => fun p => p = .i
  | .jpV0 _ => fun p => p = .pc
  | .rnd x _ => fun p => p = .reg x ∨ p = .draws
  | .drw _ _ _ => fun p => p = .reg 15 ∨ ∃ r c, p = .cell r c
  | .skp _ => fun p => p = .pc
  | .sknp _ => fun p => p = .pc
  | .ldVxDt x => fun p => p = .reg x
  | .ldVxK x => fun p => p = .reg x ∨ p = .pc
  | .ldDtVx _ => fun p => p = .delayTimer
  | .ldStVx _ => fun p => p = .soundTimer
  | .addI _ => fun p => p = .i
  | .ldF _ => fun p => p = .i
  | .ldB _ => fun p => ∃ a, p = .byte a ∧ s.i.toNat ≤ a ∧ a ≤ s.i.toNat + 2
  | .stRegs x => fun p => p = .i ∨ ∃ a, p = .byte a ∧ s.i.toNat ≤ a ∧ a ≤ s.i.toNat + x.val
  | .ldRegs x => fun p => ∃ y : RegIdx, p = .reg y ∧ y.val ≤ x.val

/-- The faults an instruction raises on the post-fetch state (R214's table, R215): none but these six have one. -/
def raises (i : Instr) (s : State) : Option Fault :=
  match i with
  | .drw _ _ n => if 0 < n.toNat ∧ 4096 < s.i.toNat + n.toNat then some (.dataAddress (max s.i.toNat 4096)) else none
  | .ldB _ => if 4093 < s.i.toNat then some (.dataAddress (max s.i.toNat 4096)) else none
  | .stRegs x => if 4095 < s.i.toNat + x.val then some (.dataAddress (max s.i.toNat 4096)) else none
  | .ldRegs x => if 4095 < s.i.toNat + x.val then some (.dataAddress (max s.i.toNat 4096)) else none
  | .skp x => if 15 < (s.reg x).toNat then some (.keyIndex (s.reg x)) else none
  | .sknp x => if 15 < (s.reg x).toNat then some (.keyIndex (s.reg x)) else none
  | .cls | .ret | .jp _ | .call _ | .seImm _ _ | .sneImm _ _ | .seReg _ _ | .ldImm _ _ | .addImm _ _ | .ldReg _ _
  | .orReg _ _ | .andReg _ _ | .xorReg _ _ | .addReg _ _ | .sub _ _ | .shr _ _ | .subn _ _ | .shl _ _ | .sneReg _ _
  | .ldI _ | .jpV0 _ | .rnd _ _ | .ldVxDt _ | .ldVxK _ | .ldDtVx _ | .ldStVx _ | .addI _ | .ldF _ => none

/-- The key numbered `b` exists and is down (R193, R225). -/
def keyIsDown (s : State) (b : Byte) : Bool := if h : b.toNat < 16 then s.isPressed ⟨b.toNat, h⟩ else false

/-- Where `pc` is after the step that executes an instruction fetched in state `s`, by R25's table; A is `s.pc`. -/
def pcAfter (i : Instr) (s : State) : Nat :=
  match i with
  | .jp nnn => nnn.toNat
  | .call nnn => nnn.toNat
  | .jpV0 nnn => (s.reg 0).toNat + nnn.toNat
  | .ret => if 0 < s.sp.val then (s.stack[s.sp.val - 1]?.getD 0).toNat else s.pc.toNat + 2
  | .seImm x nn => if s.reg x = nn then s.pc.toNat + 4 else s.pc.toNat + 2
  | .sneImm x nn => if s.reg x ≠ nn then s.pc.toNat + 4 else s.pc.toNat + 2
  | .seReg x y => if s.reg x = s.reg y then s.pc.toNat + 4 else s.pc.toNat + 2
  | .sneReg x y => if s.reg x ≠ s.reg y then s.pc.toNat + 4 else s.pc.toNat + 2
  | .skp x => if keyIsDown s (s.reg x) then s.pc.toNat + 4 else s.pc.toNat + 2
  | .sknp x => if keyIsDown s (s.reg x) then s.pc.toNat + 2 else s.pc.toNat + 4
  | .ldVxK _ => if s.anyPressed then s.pc.toNat + 2 else s.pc.toNat
  | .cls | .ldImm _ _ | .addImm _ _ | .ldReg _ _ | .orReg _ _ | .andReg _ _ | .xorReg _ _ | .addReg _ _ | .sub _ _
  | .shr _ _ | .subn _ _ | .shl _ _ | .ldI _ | .rnd _ _ | .drw _ _ _ | .ldVxDt _ | .ldDtVx _ | .ldStVx _ | .addI _
  | .ldF _ | .ldB _ | .stRegs _ | .ldRegs _ => s.pc.toNat + 2

/-- The sprite bit that Dxyn, executed in state `s`, lays on the cell of row `r` and column `c` (R181): the line is the
row's distance below `v[y]` modulo 32 and the bit the column's distance right of `v[x]` modulo 64; outside the `n` lines
and 8 columns there is none. -/
def spritePixel (s : State) (x y : RegIdx) (n : Nibble) (r : Fin 32) (c : Fin 64) : Bool :=
  let line := (r.val + 256 - (s.reg y).toNat) % 32
  let bit := (c.val + 256 - (s.reg x).toNat) % 64
  decide (line < n.toNat) && decide (bit < 8) && (Memory.read s.mem (s.i.toNat + line)).getLsbD (7 - bit)

/-- The invariant of reachable states (R42): memory in canonical form, `pc` at most 4350, and every stack entry in use at
most 4096. That `sp` is at most 16 and that a cell is 0 or 1 is in the types of their fields. -/
structure State.Inv (s : State) : Prop where
  mem_wf : Memory.wf s.mem
  pc_le : s.pc.toNat ≤ 4350
  stack_le : ∀ k : Fin 16, k.val < s.sp.val → s.stack[k.val].toNat ≤ 4096

/-- A step from `s` has a next state: no fault, no refusal. -/
def State.Steps (s : State) : Prop := ∃ t, step s = .next t

end Sys2Proof.Machine
end

