-- ==== Sys2Proof/Certificates/Slice0/Obligations.lean ====
section
/-!
DEFINITION. The statements for the provers, from the numbered rules of spec/. `exec i s` acts on the post-fetch state `s`
(R90); `SameBut w s t` says that `t` holds what `s` holds in every piece of state, every byte of memory among them, but the
pieces of `w`. Where a statement rests on a decision of the spec (Dn) its docstring names it and the log entry.
-/

section
open Sys2Proof Sys2Proof.Machine

/-! ### Encoding and decoding -/

/-- R92 to R97, R99: decoding the word of an instruction, or its two bytes, gives the instruction back, with every operand at
every value of its field. -/
def Obligations.DecodeEncode : Prop :=
  ∀ i : Instr, decode (encode i) = .ok i ∧ decodeBytes (encodeBytes i) = .ok (i, [])

/-- R99, R92: a word that decodes is the word of the instruction it decodes to, so no instruction has don't-care bits and no
two words decode to one instruction. -/
def Obligations.DecodeOnlyEncodings : Prop :=
  ∀ (w : Word) (i : Instr), decode w = .ok i → encode i = w

/-- R98: the unrecognized words are exactly those of the table of R98, and a step that fetches one changes nothing but `pc`
and reports `UnknownOpcode`. That 00E0 and 00EE match on all sixteen bits is the spec's decision D17 (log 11). -/
def Obligations.UnrecognizedWords : Prop :=
  (∀ w : Word, (∃ e, decode w = .error e) ↔
    (w.toNat / 4096 = 0x0 ∧ w.toNat ≠ 0x00E0 ∧ w.toNat ≠ 0x00EE) ∨
    (w.toNat / 4096 = 0x5 ∧ w.toNat % 16 ≠ 0) ∨
    (w.toNat / 4096 = 0x8 ∧ 8 ≤ w.toNat % 16 ∧ w.toNat % 16 ≠ 0xE) ∨
    (w.toNat / 4096 = 0x9 ∧ w.toNat % 16 ≠ 0) ∨
    (w.toNat / 4096 = 0xE ∧ w.toNat % 256 ∉ [0x9E, 0xA1]) ∨
    (w.toNat / 4096 = 0xF ∧ w.toNat % 256 ∉ [0x07, 0x0A, 0x15, 0x18, 0x1E, 0x29, 0x33, 0x55, 0x65])) ∧
  (∀ (s : State) (e : DecodeReject), s.pc.toNat ≤ 4094 → decode (Memory.readWord s.mem s.pc.toNat) = .error e →
    stepReported s = .next (s.setPc (s.pc + 2), some .unknownOpcode))

/-- R95 to R97 on a few words written out bit by bit from the spec's encodings, one for each format and family. -/
def Obligations.DecodeWords : Prop :=
  decode 0b0000000011100000 = .ok .cls ∧
  decode 0b0010001000001100 = .ok (.call 0x20C) ∧
  decode 0b0100001000001000 = .ok (.sneImm 2 8) ∧
  decode 0b1000000100100111 = .ok (.subn 1 2) ∧
  decode 0b1100001100001111 = .ok (.rnd 3 0x0F) ∧
  decode 0b1101101010111100 = .ok (.drw 10 11 12) ∧
  decode 0b1110000110100001 = .ok (.sknp 1) ∧
  decode 0b1111000100011000 = .ok (.ldStVx 1) ∧
  decode 0b1111001001010101 = .ok (.stRegs 2)

/-! ### The step -/

/-- R90: the step in its order. Above 4094 the fetch faults (the spec's decision D2, log 2); else the word is the byte at `pc`
high and the byte at `pc + 1` low, `pc` advances by 2 before the effect, and an instruction's effect is `exec` of it on the
advanced state. A word that matches no pattern reports `UnknownOpcode` and completes. -/
def Obligations.StepRunsDecoded : Prop :=
  ∀ s : State,
    (4094 < s.pc.toNat → step s = .fault (.fetchAddress s.pc)) ∧
    (s.pc.toNat ≤ 4094 → ∀ w : Word,
      w.toNat = (Memory.read s.mem s.pc.toNat).toNat * 256 + (Memory.read s.mem (s.pc.toNat + 1)).toNat →
      (∀ i, decode w = .ok i → step s = exec i (s.setPc (s.pc + 2))) ∧
      (∀ e, decode w = .error e → step s = .next (s.setPc (s.pc + 2)) ∧ stepReport s = some .unknownOpcode))

/-- R24, R62, of the model's own operation (log 14): a word placed where the step fetches is the word fetched. -/
def Obligations.PlacedWordIsFetched : Prop :=
  ∀ (s : State) (w : Word), s.pc.toNat ≤ 4094 →
    fetch (s.withFetchWord 16 w.toNat) = .ok w ∧
    SameBut (fun p => p = .byte s.pc.toNat ∨ p = .byte (s.pc.toNat + 1)) s (s.withFetchWord 16 w.toNat)

/-- No step is refused: every instruction has a meaning (R103), and an unrecognized word completes (R98). -/
def Obligations.StepNeverRefuses : Prop :=
  ∀ (s : State) (r : Refusal), step s ≠ .refused r

/-- R214, R215, at the instruction: an instruction on which the table of R214 raises nothing answers a next state; on which it
raises a fault, that fault. The faults are the spec's decisions D2, D3, D6 (log 2, log 3). -/
def Obligations.ExecFaultsExactly : Prop :=
  ∀ (i : Instr) (s : State),
    (raises i s = none → ∃ t, exec i s = .next t) ∧ (∀ f, raises i s = some f → exec i s = .fault f)

/-- R214, R215, at the step: a step faults exactly when the fetch is out of range, or the decoded instruction raises its one
fault; the fetch comes first. The faults are the spec's decisions D2, D3, D6 (log 2, log 3). -/
def Obligations.StepFaultsExactly : Prop :=
  ∀ (s : State) (f : Fault), step s = .fault f ↔
    (4094 < s.pc.toNat ∧ f = .fetchAddress s.pc) ∨
    (s.pc.toNat ≤ 4094 ∧ ∃ i, decode (Memory.readWord s.mem s.pc.toNat) = .ok i ∧ raises i s = some f)

/-- R210, R212, R215: a step reports `StackOverflow` exactly on a 2nnn with a full stack, `StackUnderflow` exactly on a 00EE with
an empty one, `UnknownOpcode` exactly on an unrecognized word, and then the state is that of R210's table. That the full-stack
call still jumps is the spec's decision D10 (log 10); that the report is given beside the state is D18 (log 7). -/
def Obligations.StepReportsExactly : Prop :=
  ∀ s : State,
    (stepReport s = some .stackOverflow ↔ s.pc.toNat ≤ 4094 ∧ s.sp.val = 16 ∧
      ∃ nnn, decode (Memory.readWord s.mem s.pc.toNat) = .ok (.call nnn)) ∧
    (stepReport s = some .stackUnderflow ↔ s.pc.toNat ≤ 4094 ∧ s.sp.val = 0 ∧
      decode (Memory.readWord s.mem s.pc.toNat) = .ok .ret) ∧
    (stepReport s = some .unknownOpcode ↔ s.pc.toNat ≤ 4094 ∧
      ∃ e, decode (Memory.readWord s.mem s.pc.toNat) = .error e) ∧
    (stepReport s = some .stackOverflow → ∀ nnn, decode (Memory.readWord s.mem s.pc.toNat) = .ok (.call nnn) →
      ∃ t, step s = .next t ∧ t.pc.toNat = nnn.toNat ∧ SameBut (fun p => p = .pc) s t) ∧
    (stepReport s = some .stackUnderflow ∨ stepReport s = some .unknownOpcode →
      ∃ t, step s = .next t ∧ t.pc.toNat = s.pc.toNat + 2 ∧ SameBut (fun p => p = .pc) s t)

/-- R25: where `pc` is after a step, for every instruction (`pcAfter` is R25's table) and for an unrecognized word. -/
def Obligations.PcAfterStep : Prop :=
  ∀ s t : State, step s = .next t →
    (∀ i, decode (Memory.readWord s.mem s.pc.toNat) = .ok i → t.pc.toNat = pcAfter i s) ∧
    (∀ e, decode (Memory.readWord s.mem s.pc.toNat) = .error e → t.pc.toNat = s.pc.toNat + 2)

/-! ### Whole-machine rules -/

/-- R23, R35, R37: the frame of every instruction. What `mayWrite` does not name, every byte of memory, register, key, cell and
stack entry among it, is as it was when `exec` answers a next state. -/
def Obligations.ExecFrame : Prop :=
  ∀ (i : Instr) (s t : State), exec i s = .next t → SameBut (mayWrite i s) s t

/-- R22: what each instruction leaves in `v[0xF]`. Only the six of R22's table write it as a side effect; every other
instruction leaves it alone unless its own destination is register 15. (8xy6 and 8xyE with x = 15 are in `ShiftRight` and
`ShiftLeft`.) -/
def Obligations.FlagRegister : Prop :=
  ∀ (i : Instr) (s t : State), exec i s = .next t →
    match i with
    | .addReg x y => (t.reg 15).toNat = if 255 < (s.reg x).toNat + (s.reg y).toNat then 1 else 0
    | .sub x y => (t.reg 15).toNat = if (s.reg y).toNat ≤ (s.reg x).toNat then 1 else 0
    | .subn x y => (t.reg 15).toNat = if (s.reg x).toNat ≤ (s.reg y).toNat then 1 else 0
    | .shr x _ => x ≠ 15 → (t.reg 15).toNat = (s.reg x).toNat % 2
    | .shl x _ => x ≠ 15 → (t.reg 15).toNat = (s.reg x).toNat / 128
    | .drw _ _ _ => t.reg 15 = 1 ∧ (∃ r c, Display.cell s.display r c = true ∧ Display.cell t.display r c = false) ∨
        t.reg 15 = 0 ∧ (∀ r c, Display.cell s.display r c = true → Display.cell t.display r c = true)
    | .ldImm x _ | .addImm x _ | .rnd x _ | .ldVxDt x | .ldVxK x => x ≠ 15 → t.reg 15 = s.reg 15
    | .ldReg x _ | .orReg x _ | .andReg x _ | .xorReg x _ => x ≠ 15 → t.reg 15 = s.reg 15
    | .ldRegs x => x ≠ 15 → t.reg 15 = s.reg 15
    | .cls | .ret | .jp _ | .call _ | .seImm _ _ | .sneImm _ _ | .seReg _ _ | .sneReg _ _ | .ldI _ | .jpV0 _ | .skp _
    | .sknp _ | .ldDtVx _ | .ldStVx _ | .addI _ | .ldF _ | .ldB _ | .stRegs _ => t.reg 15 = s.reg 15

/-- R42: every step keeps the invariant: memory canonical and inside 0 to 4095, `pc` at most 4350, every stack entry in use at
most 4096. -/
def Obligations.StepKeepsInv : Prop :=
  ∀ s t : State, s.Inv → step s = .next t → t.Inv

/-- R42, R40: the invariant holds after reset. `pc` and `sp` at reset are the spec's decision D11 (log 5). -/
def Obligations.ResetInv : Prop := State.reset.Inv

/-- R42, R224, R225, R243: the host's tick, key event and load keep the invariant. -/
def Obligations.HostKeepsInv : Prop :=
  ∀ s : State, s.Inv →
    s.tick.Inv ∧ (∀ k p, (s.setKey k p).Inv) ∧ (∀ bytes t, s.loadProgram bytes = .ok t → t.Inv)

/-- R30, R37: no instruction reads `soundTimer`. Two states that differ in it alone take steps with the same outcome that
differ, at most, in it. -/
def Obligations.SoundTimerUnread : Prop :=
  ∀ (s : State) (b : Byte),
    (∀ t, step s = .next t →
      ∃ t', step (s.setSoundTimer b) = .next t' ∧ t'.setSoundTimer 0 = t.setSoundTimer 0) ∧
    (∀ f, step s = .fault f → step (s.setSoundTimer b) = .fault f) ∧
    stepReport (s.setSoundTimer b) = stepReport s

/-- R29, R120: a stack entry not in use is read by nothing. Changing one changes no outcome of a step, nothing of the next
state outside the stack, and no entry in use there. -/
def Obligations.StaleStackUnread : Prop :=
  ∀ (s : State) (k : Fin 16) (a : Word), s.sp.val ≤ k.val →
    (∀ t, step s = .next t →
      ∃ t', step { s with stack := s.stack.set k.val a } = .next t' ∧ { t' with stack := t.stack } = t ∧
        ∀ j : Fin 16, j.val < t.sp.val → t'.stack[j.val] = t.stack[j.val]) ∧
    (∀ f, step s = .fault f → step { s with stack := s.stack.set k.val a } = .fault f)

/-- R32: no instruction reads the framebuffer except Dxyn's own XOR. Changing it changes no outcome of a step and, but for the
flag of Dxyn, nothing of the next state outside the framebuffer. -/
def Obligations.DisplayUnread : Prop :=
  ∀ (s : State) (d : Display),
    (∀ t, step s = .next t →
      ∃ t', step (s.setDisplay d) = .next t' ∧
        SameBut (fun p => (∃ r c, p = .cell r c) ∨
          (p = .reg 15 ∧ ∃ x y n, decode (Memory.readWord s.mem s.pc.toNat) = .ok (.drw x y n))) t t') ∧
    (∀ f, step s = .fault f → step (s.setDisplay d) = .fault f)

/-- R224, R228: a tick between two steps commutes with a step that executes no timer instruction (Fx07, Fx15, Fx18). -/
def Obligations.TickCommutes : Prop :=
  ∀ s t : State, step s = .next t →
    (∀ x, decode (Memory.readWord s.mem s.pc.toNat) ≠ .ok (.ldVxDt x) ∧
      decode (Memory.readWord s.mem s.pc.toNat) ≠ .ok (.ldDtVx x) ∧
      decode (Memory.readWord s.mem s.pc.toNat) ≠ .ok (.ldStVx x)) →
    step s.tick = .next t.tick

/-! ### The open policies -/

/-- R8, R36, R78, R193, R212: the policies decide only where the default faults. Where `step` has a next state, the spec's step
under any choice of OOR_POLICY and KEY_INDEX_POLICY, with the byte that `step` draws, has the same one and the same report;
where `step` faults, the spec's step at the default policies has that fault, whatever the draw is. The defaults are the spec's
decisions D2, D3 and D6 (log 2, log 3); the byte `step` draws is log 6, and a report beside the state is D18 (log 7). -/
def Obligations.PoliciesDecideOnlyFaults : Prop :=
  ∀ s : State,
    (∀ (p : Policies) (t : State), step s = .next t →
      s.toCpuState.step p (Config.drawByte s.draws) = .next (t.toCpuState, stepReport s)) ∧
    (∀ (rnd : Byte) (f : Fault), step s = .fault f → s.toCpuState.step defaultPolicies rnd = .fault f)

/-- R20, R34, R36, of the model's own field (log 6): `draws` is no state of the hardware. Changing it changes no fault and no
report of a step and, but for the register that a Cxnn writes, nothing of the next state; and no draw but that of a Cxnn is
used, so the spec's step under any policy gives one outcome for every draw when the word is not a Cxnn. -/
def Obligations.DrawsAreNoState : Prop :=
  ∀ (s : State) (n : Nat),
    (∀ t, step s = .next t → ∃ t', step (s.setDraws n) = .next t' ∧
      SameBut (fun p => p = .draws ∨ ∃ x nn, p = .reg x ∧ decode (Memory.readWord s.mem s.pc.toNat) = .ok (.rnd x nn)) t t') ∧
    (∀ f, step s = .fault f → step (s.setDraws n) = .fault f) ∧
    stepReport (s.setDraws n) = stepReport s ∧
    (∀ (p : Policies) (a b : Byte),
      (∀ w x nn, fetchWith p.oor s = .ok w → decode w ≠ .ok (.rnd x nn)) →
      s.toCpuState.step p a = s.toCpuState.step p b)

/-- R78, R98, R212: under OOR_POLICY = wrap no address fault exists, and the fetch reads `pc` and `pc + 1` modulo 4096. The
instruction so fetched is executed with its report, at any `pc`, and a word that matches no pattern reports `UnknownOpcode`.
`wrap` is the spec's open alternative of D2 and D3 (log 2, log 21); a report beside the state is D18 (log 7). -/
def Obligations.WrapHasNoAddressFault : Prop :=
  ∀ (k : KeyIndexPolicy) (rnd : Byte) (s : State),
    (∀ f, stepWith ⟨.wrap, k⟩ rnd s = .fault f → k = .fault ∧ ∃ b : Byte, 15 < b.toNat ∧ f = .keyIndex b) ∧
    (∀ r, stepWith ⟨.wrap, k⟩ rnd s ≠ .refused r) ∧
    (∀ w, w = wordOfBytes (Memory.read s.mem (s.pc.toNat % 4096)) (Memory.read s.mem ((s.pc.toNat + 1) % 4096)) →
      (∀ i t, decode w = .ok i → execWith ⟨.wrap, k⟩ rnd i (s.setPc (s.pc + 2)) = .next t →
        stepWith ⟨.wrap, k⟩ rnd s = .next (t, report i (s.setPc (s.pc + 2)))) ∧
      (∀ e, decode w = .error e →
        stepWith ⟨.wrap, k⟩ rnd s = .next (s.setPc (s.pc + 2), some .unknownOpcode)))

/-! ### Control transfer and skips -/

/-- R120: 00EE. That it is the word 0x00EE alone is the spec's decision D17 (log 11). With an entry in use it pops it into `pc`, without erasing it; with none it reports and behaves like a no-op. The
popped value is at most 4096 wherever the invariant holds. -/
def Obligations.Return : Prop :=
  (∀ w : Word, decode w = .ok .ret ↔ w = 0x00EE) ∧
  ∀ s : State,
    (s.sp.val = 0 → exec .ret s = .next s ∧ report .ret s = some .stackUnderflow) ∧
    (∀ k : Fin 16, s.sp.val = k.val + 1 → ∃ t, exec .ret s = .next t ∧ report .ret s = none ∧
      t.sp.val = k.val ∧ t.pc = s.stack[k.val] ∧ (s.Inv → t.pc.toNat ≤ 4096) ∧ SameBut (fun p => p = .pc ∨ p = .sp) s t)

/-- R121: 1nnn. The jump is absolute and unchecked; a jump to itself leaves the whole state unchanged by the step; a jump to
0xFFF makes the next step fault (the spec's decision D2, log 2). -/
def Obligations.Jump : Prop :=
  (∀ (s : State) (nnn : Addr12), decode (0x1#4 ++ nnn : BitVec 16) = .ok (.jp nnn) ∧
    ∃ t, exec (.jp nnn) s = .next t ∧ report (.jp nnn) s = none ∧ t.pc.toNat = nnn.toNat ∧ SameBut (fun p => p = .pc) s t ∧ (nnn = 0xFFF → step t = .fault (.fetchAddress 0xFFF))) ∧
  (∀ (s : State) (nnn : Addr12), s.pc.toNat ≤ 4094 → s.pc.toNat = nnn.toNat →
    Memory.readWord s.mem s.pc.toNat = (0x1#4 ++ nnn : BitVec 16) → step s = .next s)

/-- R122: 2nnn. With room the post-fetch `pc` is pushed; on a full stack nothing is pushed and the step reports; the jump is
taken in both cases. That it is taken on a full stack is the spec's decision D10 (log 10). -/
def Obligations.Call : Prop :=
  ∀ (s : State) (nnn : Addr12),
    decode (0x2#4 ++ nnn : BitVec 16) = .ok (.call nnn) ∧
    (∀ k : Fin 16, s.sp.val = k.val → ∃ t, exec (.call nnn) s = .next t ∧ report (.call nnn) s = none ∧
      t.stack[k.val] = s.pc ∧ t.sp.val = k.val + 1 ∧ t.pc.toNat = nnn.toNat ∧
      SameBut (fun p => p = .pc ∨ p = .sp ∨ p = .stackEntry k) s t) ∧
    (s.sp.val = 16 → ∃ t, exec (.call nnn) s = .next t ∧ report (.call nnn) s = some .stackOverflow ∧
      t.pc.toNat = nnn.toNat ∧ SameBut (fun p => p = .pc) s t)

/-- R120, R122: a 00EE after a 2nnn, wherever it stands, returns to the instruction following the call, and of the state only
the stale stack entry differs. -/
def Obligations.CallThenReturn : Prop :=
  ∀ (s : State) (nnn : Addr12) (k : Fin 16), s.sp.val = k.val →
    ∃ t, exec (.call nnn) s = .next t ∧ ∀ a : Word, ∃ u, exec .ret (t.setPc a) = .next u ∧
      SameBut (fun p => p = .stackEntry k) s u

/-- R123: Bnnn jumps to `v[0] + nnn`, 0 to 4350, not reduced (the spec's decision D1, log 1). -/
def Obligations.JumpOffset : Prop :=
  ∀ (s : State) (nnn : Addr12),
    decode (0xB#4 ++ nnn : BitVec 16) = .ok (.jpV0 nnn) ∧
    ∃ t, exec (.jpV0 nnn) s = .next t ∧ report (.jpV0 nnn) s = none ∧ t.pc.toNat = (s.reg 0).toNat + nnn.toNat ∧
      SameBut (fun p => p = .pc) s t

/-- R130: 3xnn. When the register equals the literal `pc` moves on by a further 2; from A = 4094 the next step then faults (the
spec's decision D2, log 2). -/
def Obligations.SkipIfEqualLiteral : Prop :=
  (∀ (s : State) (x : RegIdx) (nn : Byte),
    decode (0x3#4 ++ (BitVec.ofFin x : BitVec 4) ++ nn : BitVec 16) = .ok (.seImm x nn) ∧ report (.seImm x nn) s = none ∧
    ∃ t, exec (.seImm x nn) s = .next t ∧ t.pc = (if s.reg x = nn then s.pc + 2 else s.pc) ∧
      SameBut (fun p => p = .pc) s t) ∧
  (∀ (s : State) (x : RegIdx), s.pc.toNat = 4094 →
    Memory.readWord s.mem 4094 = (0x3#4 ++ (BitVec.ofFin x : BitVec 4) ++ s.reg x : BitVec 16) →
    ∃ t, step s = .next t ∧ t.pc.toNat = 4098 ∧ step t = .fault (.fetchAddress 4098))

/-- R131, R132, R133: 4xnn, 5xy0, 9xy0. The skip is taken exactly when the condition holds, and nothing but `pc` changes. -/
def Obligations.OtherSkips : Prop :=
  ∀ (s : State) (x y : RegIdx) (nn : Byte),
    (decode (0x4#4 ++ (BitVec.ofFin x : BitVec 4) ++ nn : BitVec 16) = .ok (.sneImm x nn) ∧ report (.sneImm x nn) s = none ∧
      ∃ t, exec (.sneImm x nn) s = .next t ∧ t.pc = (if s.reg x ≠ nn then s.pc + 2 else s.pc) ∧
        SameBut (fun p => p = .pc) s t) ∧
    (decode (0x5#4 ++ (BitVec.ofFin x : BitVec 4) ++ (BitVec.ofFin y : BitVec 4) ++ 0x0#4 : BitVec 16) = .ok (.seReg x y) ∧
      report (.seReg x y) s = none ∧
      ∃ t, exec (.seReg x y) s = .next t ∧ t.pc = (if s.reg x = s.reg y then s.pc + 2 else s.pc) ∧
        SameBut (fun p => p = .pc) s t) ∧
    (decode (0x9#4 ++ (BitVec.ofFin x : BitVec 4) ++ (BitVec.ofFin y : BitVec 4) ++ 0x0#4 : BitVec 16) = .ok (.sneReg x y) ∧
      report (.sneReg x y) s = none ∧
      ∃ t, exec (.sneReg x y) s = .next t ∧ t.pc = (if s.reg x ≠ s.reg y then s.pc + 2 else s.pc) ∧
        SameBut (fun p => p = .pc) s t)

/-! ### Register and literal -/

/-- R140: 6xnn. -/
def Obligations.LoadLiteral : Prop :=
  ∀ (s : State) (x : RegIdx) (nn : Byte),
    decode (0x6#4 ++ (BitVec.ofFin x : BitVec 4) ++ nn : BitVec 16) = .ok (.ldImm x nn) ∧ report (.ldImm x nn) s = none ∧
    ∃ t, exec (.ldImm x nn) s = .next t ∧ t.reg x = nn ∧ SameBut (fun p => p = .reg x) s t

/-- R141: 7xnn. The sum wraps modulo 256 and no carry is written. -/
def Obligations.AddLiteral : Prop :=
  ∀ (s : State) (x : RegIdx) (nn : Byte),
    decode (0x7#4 ++ (BitVec.ofFin x : BitVec 4) ++ nn : BitVec 16) = .ok (.addImm x nn) ∧ report (.addImm x nn) s = none ∧
    ∃ t, exec (.addImm x nn) s = .next t ∧ (t.reg x).toNat = ((s.reg x).toNat + nn.toNat) % 256 ∧
      SameBut (fun p => p = .reg x) s t

/-- R142: Cxnn writes the drawn byte, whatever it is, and-ed with the literal; the result has no bit that the literal has
clear; the next draw is a fresh one. With the draw as an argument it writes that byte and-ed with the literal, for every draw
(R36). That draws are counted in the host's interface is the model's own choice (D13, log 6). -/
def Obligations.RandomMask : Prop :=
  ∀ (s : State) (x : RegIdx) (nn : Byte),
    decode (0xC#4 ++ (BitVec.ofFin x : BitVec 4) ++ nn : BitVec 16) = .ok (.rnd x nn) ∧ report (.rnd x nn) s = none ∧
    (∃ t, exec (.rnd x nn) s = .next t ∧ t.reg x = Config.drawByte s.draws &&& nn ∧ t.reg x &&& ~~~nn = 0 ∧
      t.draws = s.draws + 1 ∧ SameBut (fun p => p = .reg x ∨ p = .draws) s t) ∧
    ∀ (p : Policies) (a : Byte), ∃ u, execWith p a (.rnd x nn) s = .next u ∧ u.reg x = a &&& nn ∧
      SameBut (fun p => p = .reg x) s u

/-! ### The ALU -/

/-- R150 to R153, R161: 8xy0 to 8xy3 write `v[x]` alone; `v[0xF]` is untouched unless x = 15. The minor opcode numbers are the
spec's decision D15, from general knowledge (log 8). -/
def Obligations.AssignAndBitwise : Prop :=
  ∀ (s : State) (x y : RegIdx),
    (∃ t, exec (.ldReg x y) s = .next t ∧ t.reg x = s.reg y ∧ SameBut (fun p => p = .reg x) s t) ∧
    (∃ t, exec (.orReg x y) s = .next t ∧ t.reg x = s.reg x ||| s.reg y ∧ SameBut (fun p => p = .reg x) s t) ∧
    (∃ t, exec (.andReg x y) s = .next t ∧ t.reg x = s.reg x &&& s.reg y ∧ SameBut (fun p => p = .reg x) s t) ∧
    (∃ t, exec (.xorReg x y) s = .next t ∧ t.reg x = s.reg x ^^^ s.reg y ∧ SameBut (fun p => p = .reg x) s t)

/-- R154, R160: 8xy4. The carry is in `v[0xF]` whatever x and y are; the sum is in `v[x]` unless x = 15. The order of the two
writes is the spec's decision D9 (log 9). -/
def Obligations.AddWithCarry : Prop :=
  ∀ (s : State) (x y : RegIdx), ∃ t, exec (.addReg x y) s = .next t ∧
    (x ≠ 15 → (t.reg x).toNat = ((s.reg x).toNat + (s.reg y).toNat) % 256) ∧
    (t.reg 15).toNat = (if 255 < (s.reg x).toNat + (s.reg y).toNat then 1 else 0) ∧
    SameBut (fun p => p = .reg x ∨ p = .reg 15) s t

/-- R155, R160: 8xy5. The flag is 1 when no borrow is needed; the difference wraps modulo 256 and is lost when x = 15 (the
spec's decision D8, log 9). -/
def Obligations.Subtract : Prop :=
  ∀ (s : State) (x y : RegIdx), ∃ t, exec (.sub x y) s = .next t ∧
    (x ≠ 15 → (t.reg x).toNat = ((s.reg x).toNat + 256 - (s.reg y).toNat) % 256) ∧
    (t.reg 15).toNat = (if (s.reg y).toNat ≤ (s.reg x).toNat then 1 else 0) ∧
    SameBut (fun p => p = .reg x ∨ p = .reg 15) s t

/-- R157, R160: 8xy7, and that the order the source leaves open cannot be seen: writing the result and then comparing `v[y]`
with the new `v[x]` gives the same state, for every x and y (D7; the order of the two writes is D8, log 9). -/
def Obligations.ReverseSubtract : Prop :=
  ∀ (s : State) (x y : RegIdx),
    (∃ t, exec (.subn x y) s = .next t ∧
      (x ≠ 15 → (t.reg x).toNat = ((s.reg y).toNat + 256 - (s.reg x).toNat) % 256) ∧
      (t.reg 15).toNat = (if (s.reg x).toNat ≤ (s.reg y).toNat then 1 else 0) ∧
      SameBut (fun p => p = .reg x ∨ p = .reg 15) s t) ∧
    (∀ s1, s1 = s.setReg x (s.reg y - s.reg x) →
      exec (.subn x y) s = .next (s1.setReg 15 (if (s1.reg x).toNat ≤ (s1.reg y).toNat then 1 else 0)))

/-- R156, R160: 8xy6 shifts `v[x]` in place whatever y is; with x = 15 `v[0xF]` ends 0 (the spec's decision D9, log 9). -/
def Obligations.ShiftRight : Prop :=
  ∀ (s : State) (x y : RegIdx), ∃ t, exec (.shr x y) s = .next t ∧
    (x ≠ 15 → (t.reg x).toNat = (s.reg x).toNat / 2 ∧ (t.reg 15).toNat = (s.reg x).toNat % 2) ∧
    (x = 15 → t.reg 15 = 0) ∧ SameBut (fun p => p = .reg x ∨ p = .reg 15) s t

/-- R158, R160: 8xyE shifts `v[x]` in place whatever y is; with x = 15 `v[0xF]` ends 2 or 0 (the spec's decision D9, log 9). -/
def Obligations.ShiftLeft : Prop :=
  ∀ (s : State) (x y : RegIdx), ∃ t, exec (.shl x y) s = .next t ∧
    (x ≠ 15 → (t.reg x).toNat = (s.reg x).toNat * 2 % 256 ∧ (t.reg 15).toNat = (s.reg x).toNat / 128) ∧
    (x = 15 → (t.reg 15).toNat = if 128 ≤ (s.reg 15).toNat then 2 else 0) ∧
    SameBut (fun p => p = .reg x ∨ p = .reg 15) s t

/-! ### Index register and memory -/

/-- R170: Annn. -/
def Obligations.LoadIndex : Prop :=
  ∀ (s : State) (nnn : Addr12),
    decode (0xA#4 ++ nnn : BitVec 16) = .ok (.ldI nnn) ∧ report (.ldI nnn) s = none ∧
    ∃ t, exec (.ldI nnn) s = .next t ∧ t.i.toNat = nnn.toNat ∧ SameBut (fun p => p = .i) s t

/-- R171: Fx1E adds modulo 65536 with no flag, and raises nothing. -/
def Obligations.AddToIndex : Prop :=
  ∀ (s : State) (x : RegIdx),
    decode (0xF#4 ++ (BitVec.ofFin x : BitVec 4) ++ 0x1E#8 : BitVec 16) = .ok (.addI x) ∧ report (.addI x) s = none ∧
    ∃ t, exec (.addI x) s = .next t ∧ t.i.toNat = (s.i.toNat + (s.reg x).toNat) % 65536 ∧ SameBut (fun p => p = .i) s t

/-- R172: Fx29 multiplies the whole byte by 5 (unmasked: the spec's decision D25, log 16). -/
def Obligations.GlyphAddress : Prop :=
  ∀ (s : State) (x : RegIdx),
    ∃ t, exec (.ldF x) s = .next t ∧ t.i.toNat = (s.reg x).toNat * 5 ∧ SameBut (fun p => p = .i) s t

/-- R173: Fx33 stores hundreds, tens and ones at `i`, `i + 1`, `i + 2`, which read together give the register back; `i` and every
other byte are unchanged. Above 4093 it faults and writes nothing (the spec's decision D3, log 2). -/
def Obligations.StoreDecimal : Prop :=
  ∀ (s : State) (x : RegIdx),
    (s.i.toNat ≤ 4093 → ∃ t, exec (.ldB x) s = .next t ∧
      (Memory.read t.mem s.i.toNat).toNat = (s.reg x).toNat / 100 ∧
      (Memory.read t.mem (s.i.toNat + 1)).toNat = (s.reg x).toNat / 10 % 10 ∧
      (Memory.read t.mem (s.i.toNat + 2)).toNat = (s.reg x).toNat % 10 ∧
      SameBut (fun p => ∃ a, p = .byte a ∧ s.i.toNat ≤ a ∧ a ≤ s.i.toNat + 2) s t) ∧
    (4093 < s.i.toNat → exec (.ldB x) s = .fault (.dataAddress (max s.i.toNat 4096)))

/-- R174: Fx55 stores `v[0]` to `v[x]` from `i` up and advances `i` by x + 1; every byte outside those is unchanged. Where the
highest address is above 4095 it faults and writes nothing (the spec's decision D3, log 2). -/
def Obligations.StoreRegisters : Prop :=
  ∀ (s : State) (x : RegIdx),
    (s.i.toNat + x.val ≤ 4095 → ∃ t, exec (.stRegs x) s = .next t ∧
      (∀ k : RegIdx, k.val ≤ x.val → Memory.read t.mem (s.i.toNat + k.val) = s.reg k) ∧
      t.i.toNat = s.i.toNat + x.val + 1 ∧
      SameBut (fun p => p = .i ∨ ∃ a, p = .byte a ∧ s.i.toNat ≤ a ∧ a ≤ s.i.toNat + x.val) s t) ∧
    (4095 < s.i.toNat + x.val → exec (.stRegs x) s = .fault (.dataAddress (max s.i.toNat 4096)))

/-- R175: Fx65 loads `v[0]` to `v[x]` from `i` up and changes nothing else, `i` included. Where the highest address is above
4095 it faults (the spec's decision D3, log 2). -/
def Obligations.LoadRegisters : Prop :=
  ∀ (s : State) (x : RegIdx),
    (s.i.toNat + x.val ≤ 4095 → ∃ t, exec (.ldRegs x) s = .next t ∧
      (∀ k : RegIdx, k.val ≤ x.val → t.reg k = Memory.read s.mem (s.i.toNat + k.val)) ∧
      SameBut (fun p => ∃ k : RegIdx, p = .reg k ∧ k.val ≤ x.val) s t) ∧
    (4095 < s.i.toNat + x.val → exec (.ldRegs x) s = .fault (.dataAddress (max s.i.toNat 4096)))

/-- R174, R175 (90_conflicts.md C4): with `i` set back, an Fx65 after an Fx55 with the same x restores the registers, whatever the
registers held in between. -/
def Obligations.StoreThenLoad : Prop :=
  ∀ (s t u : State) (x : RegIdx), exec (.stRegs x) s = .next t → u.mem = t.mem → u.i = s.i →
    ∃ w, exec (.ldRegs x) u = .next w ∧ w.i = s.i ∧ ∀ k : RegIdx, k.val ≤ x.val → w.reg k = s.reg k

/-- R75, R62: self-modifying code. After an Fx55 that stores over the two bytes at `pc`, the very next fetch reads the stored
registers, the one at the lower address as the high byte. -/
def Obligations.StoreIsFetched : Prop :=
  ∀ (s t : State) (x k j : RegIdx), exec (.stRegs x) s = .next t → j.val = k.val + 1 → j.val ≤ x.val →
    s.pc.toNat = s.i.toNat + k.val → ∃ w : Word, fetch t = .ok w ∧ w.toNat = (s.reg k).toNat * 256 + (s.reg j).toNat

/-! ### Display -/

/-- R180: 00E0 sets every cell to 0 and changes nothing else. That it is the word 0x00E0 alone is the spec's decision D17
(log 11). -/
def Obligations.ClearDisplay : Prop :=
  (∀ w : Word, decode w = .ok .cls ↔ w = 0x00E0) ∧
  ∀ s : State, report .cls s = none ∧ ∃ t, exec .cls s = .next t ∧ (∀ r c, Display.cell t.display r c = false) ∧
    SameBut (fun p => ∃ r c, p = .cell r c) s t

/-- R181: Dxyn. Every cell ends XORed with the sprite bit that lands on it, both coordinates wrapping (`spritePixel`); the flag
is 1 exactly when a set cell was turned off; nothing else changes. Where the highest address is above 4095 it faults (the
spec's decision D3, log 2); the coordinates are read before the flag is cleared (D27, log 9); that n = 0 draws no row and is
not checked is D24 (log 16). -/
def Obligations.DrawSprite : Prop :=
  ∀ (s : State) (x y : RegIdx) (n : Nibble),
    (n.toNat = 0 ∨ s.i.toNat + n.toNat ≤ 4096 → ∃ t, exec (.drw x y n) s = .next t ∧
      (∀ r c, Display.cell t.display r c = (Display.cell s.display r c ^^ spritePixel s x y n r c)) ∧
      (t.reg 15 = 1 ∧ (∃ r c, spritePixel s x y n r c = true ∧ Display.cell s.display r c = true) ∨
        t.reg 15 = 0 ∧ ∀ r c, spritePixel s x y n r c = true → Display.cell s.display r c = false) ∧
      SameBut (fun p => p = .reg 15 ∨ ∃ r c, p = .cell r c) s t) ∧
    (0 < n.toNat → 4096 < s.i.toNat + n.toNat → exec (.drw x y n) s = .fault (.dataAddress (max s.i.toNat 4096)))

/-- R182: a draw of zero rows clears the flag and does nothing else, whatever `i` holds (the spec's decision D24, log 16). -/
def Obligations.DrawZeroRows : Prop :=
  ∀ (s : State) (x y : RegIdx), ∃ t, exec (.drw x y 0) s = .next t ∧ t.reg 15 = 0 ∧ SameBut (fun p => p = .reg 15) s t

/-- R183: drawing the same sprite twice at the same place restores the framebuffer exactly, and the second draw's flag is 1
exactly when the first set a cell. (With x = 15 or y = 15 the draw changes its own coordinate, which R183 sets apart.) -/
def Obligations.DrawTwiceRestores : Prop :=
  ∀ (s t : State) (x y : RegIdx) (n : Nibble), x ≠ 15 → y ≠ 15 → exec (.drw x y n) s = .next t →
    ∃ u, exec (.drw x y n) t = .next u ∧ u.display = s.display ∧
      (u.reg 15 = 1 ↔ ∃ r c, Display.cell s.display r c = false ∧ Display.cell t.display r c = true)

/-! ### Keypad and timers -/

/-- R190, R191, R193: Ex9E and ExA1 skip by the level of the key that the whole of `v[x]` names, and change nothing but `pc`;
above 15 they fault (the spec's decision D6, log 3). -/
def Obligations.KeySkips : Prop :=
  ∀ (s : State) (x : RegIdx),
    (∀ k : Fin 16, (s.reg x).toNat = k.val →
      (∃ t, exec (.skp x) s = .next t ∧ t.pc = (if s.isPressed k then s.pc + 2 else s.pc) ∧ SameBut (fun p => p = .pc) s t) ∧
      (∃ t, exec (.sknp x) s = .next t ∧ t.pc = (if s.isPressed k then s.pc else s.pc + 2) ∧
        SameBut (fun p => p = .pc) s t)) ∧
    (15 < (s.reg x).toNat → exec (.skp x) s = .fault (.keyIndex (s.reg x)) ∧ exec (.sknp x) s = .fault (.keyIndex (s.reg x)))

/-- R193: the alternatives of KEY_INDEX_POLICY above 15. `mask` tests key `v[x] & 0xF`; `released` tests a key never pressed. -/
def Obligations.KeyPolicies : Prop :=
  ∀ (o : OorPolicy) (rnd : Byte) (s : State) (x : RegIdx), 15 < (s.reg x).toNat →
    (∀ k : Fin 16, (s.reg x).toNat % 16 = k.val →
      execWith ⟨o, .mask⟩ rnd (.skp x) s = .next (if s.isPressed k then s.setPc (s.pc + 2) else s) ∧
      execWith ⟨o, .mask⟩ rnd (.sknp x) s = .next (if s.isPressed k then s else s.setPc (s.pc + 2))) ∧
    execWith ⟨o, .released⟩ rnd (.skp x) s = .next s ∧
    execWith ⟨o, .released⟩ rnd (.sknp x) s = .next (s.setPc (s.pc + 2))

/-- R192: Fx0A. With keys down the least goes to `v[x]` and nothing else changes; with none the instruction waits: the whole
step leaves the whole state unchanged and reports nothing. The level, not an edge, is tested (the spec's decision D23,
log 15). -/
def Obligations.WaitForKey : Prop :=
  (∀ (s : State) (x : RegIdx) (k : Fin 16), s.isPressed k = true → (∀ j : Fin 16, j.val < k.val → s.isPressed j = false) →
    ∃ t, exec (.ldVxK x) s = .next t ∧ (t.reg x).toNat = k.val ∧ SameBut (fun p => p = .reg x) s t) ∧
  (∀ (s : State) (x : RegIdx), s.pc.toNat ≤ 4094 → (∀ k, s.isPressed k = false) →
    decode (Memory.readWord s.mem s.pc.toNat) = .ok (.ldVxK x) → stepReported s = .next (s, none))

/-- R200, R201, R202: the three copies between `v[x]` and the timers. Which code does which is the spec's decision D15, from
general knowledge (log 8). -/
def Obligations.TimerCopies : Prop :=
  ∀ (s : State) (x : RegIdx),
    (∃ t, exec (.ldVxDt x) s = .next t ∧ t.reg x = s.delayTimer ∧ SameBut (fun p => p = .reg x) s t) ∧
    (∃ t, exec (.ldDtVx x) s = .next t ∧ t.delayTimer = s.reg x ∧ SameBut (fun p => p = .delayTimer) s t) ∧
    (∃ t, exec (.ldStVx x) s = .next t ∧ t.soundTimer = s.reg x ∧ t.soundEnabled = decide (0 < (s.reg x).toNat) ∧
      SameBut (fun p => p = .soundTimer) s t)

/-! ### Reset and the host -/

/-- R40, R41: the state after reset. Above the font table memory is 0, and glyph k of the default font lies at 5*k. `pc` = 0x200
and the zeros are the spec's decision D11 (log 5); the font bytes are D12, from general knowledge (log 4): the glyphs of 0
and F are named here. -/
def Obligations.ResetState : Prop :=
  (∀ a, 0x050 ≤ a → Memory.read State.reset.mem a = 0) ∧
  [0, 1, 2, 3, 4].map (Memory.read State.reset.mem) = [0xF0, 0x90, 0x90, 0x90, 0xF0] ∧
  [75, 76, 77, 78, 79].map (Memory.read State.reset.mem) = [0xF0, 0x80, 0xF0, 0x80, 0x80] ∧
  State.reset.pc = 0x200 ∧ State.reset.i = 0 ∧ (∀ x, State.reset.reg x = 0) ∧ State.reset.sp.val = 0 ∧
  (∀ k : Fin 16, State.reset.stack[k.val] = 0) ∧ State.reset.delayTimer = 0 ∧ State.reset.soundTimer = 0 ∧
  (∀ k, State.reset.isPressed k = false) ∧ (∀ r c, Display.cell State.reset.display r c = false)

/-- R224: a tick takes 1 from each timer that is above 0, each by its own value, and changes nothing else. -/
def Obligations.Tick : Prop :=
  ∀ s : State,
    s.tick.delayTimer.toNat = s.delayTimer.toNat - 1 ∧ s.tick.soundTimer.toNat = s.soundTimer.toNat - 1 ∧
    SameBut (fun p => p = .delayTimer ∨ p = .soundTimer) s s.tick

/-- R225, R227: `setKey` sets one key and changes nothing else; `anyPressed` is that some key is down; the audio gate is
`soundTimer > 0`. A code above 15 is not given to the model (D6, log 20). -/
def Obligations.KeyAndGate : Prop :=
  ∀ (s : State) (k : Fin 16) (p : Bool),
    (s.setKey k p).isPressed k = p ∧ SameBut (fun q => q = .key k) s (s.setKey k p) ∧
    (s.anyPressed = true ↔ ∃ j, s.isPressed j = true) ∧ (s.soundEnabled = true ↔ s.soundTimer ≠ 0)

/-- R243, R213: a load of at most 3584 bytes copies the image to 0x200 onward and changes nothing else; a longer one fails and
there is no interpreter state. Only one load, before the first step, is modelled (D22, log 14). -/
def Obligations.LoadProgram : Prop :=
  ∀ bytes : List Byte,
    (bytes.length ≤ 3584 → ∃ t, boot bytes = .ok t ∧
      (∀ (k : Nat) (h : k < bytes.length), Memory.read t.mem (0x200 + k) = bytes[k]) ∧
      SameBut (fun p => ∃ k, p = .byte (0x200 + k) ∧ k < bytes.length) State.reset t) ∧
    (3584 < bytes.length → boot bytes = .error .programTooLarge) ∧
    (∀ (p : Policies) (q : Session), q.mayLoad = false → Session.act p (.load (some bytes)) q = .refused .lateLoad)

/-- One action of the host on a session is one whole step with its report, tick, key event or load (R71, R228), and a late load
is refused. The form is the model's choice: that a report goes with the next state is log 7 (D18), that actions come one by
one in any order is log 13 (D20), and that a step or a load ends the time in which a load may come is log 14 (D22). -/
def Obligations.SessionActs : Prop :=
  ∀ (p : Policies) (q : Session),
    (∀ rnd t r, q.state.step p rnd = .next (t, r) → Session.act p (.step rnd) q = .next (⟨false, t⟩, r)) ∧
    (∀ rnd f, q.state.step p rnd = .fault f → Session.act p (.step rnd) q = .fault f) ∧
    Session.act p .tick q = .next (⟨q.mayLoad, q.state.toState.tick.toCpuState⟩, none) ∧
    (∀ k b, Session.act p (.setKey k b) q = .next (⟨q.mayLoad, (q.state.toState.setKey k b).toCpuState⟩, none)) ∧
    (∀ bytes t, q.mayLoad = true → q.state.toState.loadProgram bytes = .ok t →
      Session.act p (.load (some bytes)) q = .next (⟨false, t.toCpuState⟩, none))

end
end

