-- ==== Sys2Proof/Laws/Memory.lean ====
section
/-!
SUPPORT. The laws of memory: a read after a write, and that a write keeps the canonical form. The read laws hold of every
list, in canonical form or not.
-/
namespace Sys2Proof.Machine

theorem Memory.find_insert (m : Memory) (a b : Nat) (v : Byte) :
    Memory.find (Memory.insert m a v) b = if b = a then some v else Memory.find m b := by
  induction m with
  | nil => simp [Memory.insert, Memory.find, eq_comm]
  | cons c m ih =>
    obtain ⟨k, w⟩ := c
    unfold Memory.insert
    split_ifs with h1 h2 <;> simp only [Memory.find, ih] <;> split_ifs <;> first | rfl | omega

theorem Memory.find_filter (m : Memory) (a b : Nat) :
    Memory.find (m.filter (fun c => c.1 ≠ a)) b = if b = a then none else Memory.find m b := by
  induction m with
  | nil => simp [Memory.find]
  | cons c m ih =>
    obtain ⟨k, w⟩ := c
    by_cases hk : k = a
    · subst hk
      simp only [ne_eq, not_true_eq_false, decide_false, Bool.false_eq_true, not_false_eq_true, List.filter_cons_of_neg]
      simp only [ne_eq] at ih
      rw [ih]
      simp only [Memory.find]
      split_ifs <;> first | rfl | omega
    · rw [List.filter_cons_of_pos (by simpa using hk)]
      simp only [Memory.find, ih]
      split_ifs <;> first | rfl | omega

/-- A read after a write: the written byte at its own address, and every other address as before (R65, R72). -/
theorem Memory.read_write (m : Memory) (a b : Nat) (v : Byte) :
    Memory.read (Memory.write m a v) b = if b = a then v else Memory.read m b := by
  unfold Memory.write Memory.read
  split_ifs with h1 h2 h2
  · subst h2; rw [Memory.find_filter, if_pos rfl]; simp [h1]
  · rw [Memory.find_filter, if_neg h2]
  · rw [Memory.find_insert, if_pos h2]; rfl
  · rw [Memory.find_insert, if_neg h2]

@[simp] theorem Memory.read_write_self (m : Memory) (a : Nat) (v : Byte) :
    Memory.read (Memory.write m a v) a = v := by simp [Memory.read_write]

theorem Memory.read_write_ne (m : Memory) {a b : Nat} (h : b ≠ a) (v : Byte) :
    Memory.read (Memory.write m a v) b = Memory.read m b := by simp [Memory.read_write, h]

@[simp] theorem Memory.read_nil (a : Nat) : Memory.read [] a = resetByte a := rfl

theorem Memory.mem_insert {m : Memory} {a : Nat} {v : Byte} {c : Host.Cell} (h : c ∈ Memory.insert m a v) :
    c = (a, v) ∨ c ∈ m := by
  induction m with
  | nil => simpa [Memory.insert] using h
  | cons d m ih =>
    obtain ⟨k, w⟩ := d
    unfold Memory.insert at h
    split_ifs at h
    · simpa using h
    · simp only [List.mem_cons] at h ⊢; tauto
    · simp only [List.mem_cons] at h ⊢
      rcases h with h | h
      · exact .inr (.inl h)
      · rcases ih h with h | h <;> tauto

theorem Memory.insert_sorted {m : Memory} (h : m.Pairwise (fun c d => c.1 < d.1)) (a : Nat) (v : Byte) :
    (Memory.insert m a v).Pairwise (fun c d => c.1 < d.1) := by
  induction m with
  | nil => simp [Memory.insert]
  | cons d m ih =>
    obtain ⟨k, w⟩ := d
    obtain ⟨hk, hm⟩ := List.pairwise_cons.mp h
    unfold Memory.insert
    split_ifs with h1 h2
    · refine List.pairwise_cons.mpr ⟨fun c hc => ?_, h⟩
      rcases List.mem_cons.mp hc with rfl | hc
      · exact h1
      · exact lt_trans h1 (hk c hc)
    · subst h2
      exact List.pairwise_cons.mpr ⟨hk, hm⟩
    · refine List.pairwise_cons.mpr ⟨fun c hc => ?_, ih hm⟩
      rcases Memory.mem_insert hc with rfl | hc
      · simp only; omega
      · exact hk c hc

/-- A write inside the 4096 bytes keeps the canonical form. -/
theorem Memory.write_wf {m : Memory} (h : Memory.wf m) {a : Nat} (ha : a < 4096) (v : Byte) :
    Memory.wf (Memory.write m a v) := by
  unfold Memory.write
  split_ifs with hv
  · exact ⟨h.1.filter _, fun c hc => h.2 c (List.mem_filter.mp hc).1⟩
  · refine ⟨Memory.insert_sorted h.1 a v, fun c hc => ?_⟩
    rcases Memory.mem_insert hc with rfl | hc
    · exact ⟨ha, hv⟩
    · exact h.2 c hc

theorem Memory.nil_wf : Memory.wf [] := ⟨List.Pairwise.nil, by simp⟩

theorem Memory.find_of_lt {m : Memory} {a : Nat} (h : ∀ c ∈ m, a < c.1) : Memory.find m a = none := by
  induction m with
  | nil => rfl
  | cons d m ih =>
    have h1 := h d (by simp)
    simp only [Memory.find, show d.1 ≠ a by omega, if_false]
    exact ih fun c hc => h c (by simp [hc])

theorem Memory.find_mem {m : Memory} (h : m.Pairwise (fun c d => c.1 < d.1)) {c : Host.Cell} (hc : c ∈ m) :
    Memory.find m c.1 = some c.2 := by
  induction m with
  | nil => simp at hc
  | cons d m ih =>
    obtain ⟨hd, hm⟩ := List.pairwise_cons.mp h
    rcases List.mem_cons.mp hc with rfl | hc
    · simp [Memory.find]
    · have := hd c hc
      simp only [Memory.find, show d.1 ≠ c.1 by omega, if_false]
      exact ih hm hc

theorem Memory.read_cons_of_lt {d : Host.Cell} {m : Memory} {a : Nat} (h : d.1 ≠ a) :
    Memory.read (d :: m) a = Memory.read m a := by simp [Memory.read, Memory.find, h]

/-- Memories in canonical form that read the same are the same list: the form is canonical. -/
theorem Memory.eq_of_read {m n : Memory} (hm : Memory.wf m) (hn : Memory.wf n)
    (h : ∀ a, Memory.read m a = Memory.read n a) : m = n := by
  induction m generalizing n with
  | nil =>
    cases n with
    | nil => rfl
    | cons e n =>
      have := h e.1
      have he := (hn.2 e (by simp)).2
      simp only [Memory.read, Memory.find_mem hn.1 (List.mem_cons_self)] at this
      simp only [Memory.find, Option.getD_none, Option.getD_some] at this
      exact absurd this.symm he
  | cons d m ih =>
    cases n with
    | nil =>
      have := h d.1
      have hd := (hm.2 d (by simp)).2
      simp only [Memory.read, Memory.find_mem hm.1 (List.mem_cons_self)] at this
      simp only [Memory.find, Option.getD_none, Option.getD_some] at this
      exact absurd this hd
    | cons e n =>
      obtain ⟨hdm, hm'⟩ := List.pairwise_cons.mp hm.1
      obtain ⟨hen, hn'⟩ := List.pairwise_cons.mp hn.1
      have hd := (hm.2 d (by simp)).2
      have he := (hn.2 e (by simp)).2
      have hkey : d.1 = e.1 := by
        rcases lt_trichotomy d.1 e.1 with hlt | heq | hlt
        · have := h d.1
          simp only [Memory.read, Memory.find_mem hm.1 (List.mem_cons_self)] at this
          rw [Memory.find_of_lt (m := e :: n)] at this
          · exact absurd this hd
          · intro c hc
            rcases List.mem_cons.mp hc with rfl | hc
            · exact hlt
            · exact lt_trans hlt (hen c hc)
        · exact heq
        · have := h e.1
          simp only [Memory.read, Memory.find_mem hn.1 (List.mem_cons_self)] at this
          rw [Memory.find_of_lt (m := d :: m)] at this
          · exact absurd this.symm he
          · intro c hc
            rcases List.mem_cons.mp hc with rfl | hc
            · exact hlt
            · exact lt_trans hlt (hdm c hc)
      have hval : d.2 = e.2 := by
        have := h d.1
        simp only [Memory.read, Memory.find_mem hm.1 (List.mem_cons_self)] at this
        rw [hkey, Memory.find_mem hn.1 (List.mem_cons_self)] at this
        simpa using this
      have hde : d = e := Prod.ext hkey hval
      subst hde
      congr 1
      refine ih ⟨hm', fun c hc => hm.2 c (by simp [hc])⟩ ⟨hn', fun c hc => hn.2 c (by simp [hc])⟩ fun a => ?_
      by_cases hda : d.1 = a
      · subst hda
        simp [Memory.read, Memory.find_of_lt hdm, Memory.find_of_lt hen]
      · have := h a
        rwa [Memory.read_cons_of_lt hda, Memory.read_cons_of_lt hda] at this

end Sys2Proof.Machine
end

