-- ==== Sys2Proof/Laws/State.lean ====
section
/-!
SUPPORT. One lemma per field and update of `State`, each true by `rfl`, so that no later proof unfolds a record update;
and what a register reads as after a write.
-/
namespace Sys2Proof.Machine

section
variable (s : State)

/-! ### `State.setReg` -/

@[simp] theorem State.setReg_mem (x : RegIdx) (b : Byte) : (s.setReg x b).mem = s.mem := rfl
@[simp] theorem State.setReg_pc (x : RegIdx) (b : Byte) : (s.setReg x b).pc = s.pc := rfl
@[simp] theorem State.setReg_i (x : RegIdx) (b : Byte) : (s.setReg x b).i = s.i := rfl
@[simp] theorem State.setReg_v (x : RegIdx) (b : Byte) : (s.setReg x b).v = s.v.set x.val b := rfl
@[simp] theorem State.setReg_stack (x : RegIdx) (b : Byte) : (s.setReg x b).stack = s.stack := rfl
@[simp] theorem State.setReg_sp (x : RegIdx) (b : Byte) : (s.setReg x b).sp = s.sp := rfl
@[simp] theorem State.setReg_delayTimer (x : RegIdx) (b : Byte) : (s.setReg x b).delayTimer = s.delayTimer := rfl
@[simp] theorem State.setReg_soundTimer (x : RegIdx) (b : Byte) : (s.setReg x b).soundTimer = s.soundTimer := rfl
@[simp] theorem State.setReg_keys (x : RegIdx) (b : Byte) : (s.setReg x b).keys = s.keys := rfl
@[simp] theorem State.setReg_display (x : RegIdx) (b : Byte) : (s.setReg x b).display = s.display := rfl
@[simp] theorem State.setReg_draws (x : RegIdx) (b : Byte) : (s.setReg x b).draws = s.draws := rfl

/-! ### `State.setPc` -/

@[simp] theorem State.setPc_mem (a : Word) : (s.setPc a).mem = s.mem := rfl
@[simp] theorem State.setPc_pc (a : Word) : (s.setPc a).pc = a := rfl
@[simp] theorem State.setPc_i (a : Word) : (s.setPc a).i = s.i := rfl
@[simp] theorem State.setPc_v (a : Word) : (s.setPc a).v = s.v := rfl
@[simp] theorem State.setPc_stack (a : Word) : (s.setPc a).stack = s.stack := rfl
@[simp] theorem State.setPc_sp (a : Word) : (s.setPc a).sp = s.sp := rfl
@[simp] theorem State.setPc_delayTimer (a : Word) : (s.setPc a).delayTimer = s.delayTimer := rfl
@[simp] theorem State.setPc_soundTimer (a : Word) : (s.setPc a).soundTimer = s.soundTimer := rfl
@[simp] theorem State.setPc_keys (a : Word) : (s.setPc a).keys = s.keys := rfl
@[simp] theorem State.setPc_display (a : Word) : (s.setPc a).display = s.display := rfl
@[simp] theorem State.setPc_draws (a : Word) : (s.setPc a).draws = s.draws := rfl
@[simp] theorem State.setPc_reg (a : Word) (y : RegIdx) : (s.setPc a).reg y = s.reg y := rfl

/-! ### `State.setI` -/

@[simp] theorem State.setI_mem (a : Word) : (s.setI a).mem = s.mem := rfl
@[simp] theorem State.setI_pc (a : Word) : (s.setI a).pc = s.pc := rfl
@[simp] theorem State.setI_i (a : Word) : (s.setI a).i = a := rfl
@[simp] theorem State.setI_v (a : Word) : (s.setI a).v = s.v := rfl
@[simp] theorem State.setI_stack (a : Word) : (s.setI a).stack = s.stack := rfl
@[simp] theorem State.setI_sp (a : Word) : (s.setI a).sp = s.sp := rfl
@[simp] theorem State.setI_delayTimer (a : Word) : (s.setI a).delayTimer = s.delayTimer := rfl
@[simp] theorem State.setI_soundTimer (a : Word) : (s.setI a).soundTimer = s.soundTimer := rfl
@[simp] theorem State.setI_keys (a : Word) : (s.setI a).keys = s.keys := rfl
@[simp] theorem State.setI_display (a : Word) : (s.setI a).display = s.display := rfl
@[simp] theorem State.setI_draws (a : Word) : (s.setI a).draws = s.draws := rfl
@[simp] theorem State.setI_reg (a : Word) (y : RegIdx) : (s.setI a).reg y = s.reg y := rfl

/-! ### `State.setDelayTimer` -/

@[simp] theorem State.setDelayTimer_mem (b : Byte) : (s.setDelayTimer b).mem = s.mem := rfl
@[simp] theorem State.setDelayTimer_pc (b : Byte) : (s.setDelayTimer b).pc = s.pc := rfl
@[simp] theorem State.setDelayTimer_i (b : Byte) : (s.setDelayTimer b).i = s.i := rfl
@[simp] theorem State.setDelayTimer_v (b : Byte) : (s.setDelayTimer b).v = s.v := rfl
@[simp] theorem State.setDelayTimer_stack (b : Byte) : (s.setDelayTimer b).stack = s.stack := rfl
@[simp] theorem State.setDelayTimer_sp (b : Byte) : (s.setDelayTimer b).sp = s.sp := rfl
@[simp] theorem State.setDelayTimer_delayTimer (b : Byte) : (s.setDelayTimer b).delayTimer = b := rfl
@[simp] theorem State.setDelayTimer_soundTimer (b : Byte) : (s.setDelayTimer b).soundTimer = s.soundTimer := rfl
@[simp] theorem State.setDelayTimer_keys (b : Byte) : (s.setDelayTimer b).keys = s.keys := rfl
@[simp] theorem State.setDelayTimer_display (b : Byte) : (s.setDelayTimer b).display = s.display := rfl
@[simp] theorem State.setDelayTimer_draws (b : Byte) : (s.setDelayTimer b).draws = s.draws := rfl
@[simp] theorem State.setDelayTimer_reg (b : Byte) (y : RegIdx) : (s.setDelayTimer b).reg y = s.reg y := rfl

/-! ### `State.setSoundTimer` -/

@[simp] theorem State.setSoundTimer_mem (b : Byte) : (s.setSoundTimer b).mem = s.mem := rfl
@[simp] theorem State.setSoundTimer_pc (b : Byte) : (s.setSoundTimer b).pc = s.pc := rfl
@[simp] theorem State.setSoundTimer_i (b : Byte) : (s.setSoundTimer b).i = s.i := rfl
@[simp] theorem State.setSoundTimer_v (b : Byte) : (s.setSoundTimer b).v = s.v := rfl
@[simp] theorem State.setSoundTimer_stack (b : Byte) : (s.setSoundTimer b).stack = s.stack := rfl
@[simp] theorem State.setSoundTimer_sp (b : Byte) : (s.setSoundTimer b).sp = s.sp := rfl
@[simp] theorem State.setSoundTimer_delayTimer (b : Byte) : (s.setSoundTimer b).delayTimer = s.delayTimer := rfl
@[simp] theorem State.setSoundTimer_soundTimer (b : Byte) : (s.setSoundTimer b).soundTimer = b := rfl
@[simp] theorem State.setSoundTimer_keys (b : Byte) : (s.setSoundTimer b).keys = s.keys := rfl
@[simp] theorem State.setSoundTimer_display (b : Byte) : (s.setSoundTimer b).display = s.display := rfl
@[simp] theorem State.setSoundTimer_draws (b : Byte) : (s.setSoundTimer b).draws = s.draws := rfl
@[simp] theorem State.setSoundTimer_reg (b : Byte) (y : RegIdx) : (s.setSoundTimer b).reg y = s.reg y := rfl

/-! ### `State.setMem` -/

@[simp] theorem State.setMem_mem (m : Memory) : (s.setMem m).mem = m := rfl
@[simp] theorem State.setMem_pc (m : Memory) : (s.setMem m).pc = s.pc := rfl
@[simp] theorem State.setMem_i (m : Memory) : (s.setMem m).i = s.i := rfl
@[simp] theorem State.setMem_v (m : Memory) : (s.setMem m).v = s.v := rfl
@[simp] theorem State.setMem_stack (m : Memory) : (s.setMem m).stack = s.stack := rfl
@[simp] theorem State.setMem_sp (m : Memory) : (s.setMem m).sp = s.sp := rfl
@[simp] theorem State.setMem_delayTimer (m : Memory) : (s.setMem m).delayTimer = s.delayTimer := rfl
@[simp] theorem State.setMem_soundTimer (m : Memory) : (s.setMem m).soundTimer = s.soundTimer := rfl
@[simp] theorem State.setMem_keys (m : Memory) : (s.setMem m).keys = s.keys := rfl
@[simp] theorem State.setMem_display (m : Memory) : (s.setMem m).display = s.display := rfl
@[simp] theorem State.setMem_draws (m : Memory) : (s.setMem m).draws = s.draws := rfl
@[simp] theorem State.setMem_reg (m : Memory) (y : RegIdx) : (s.setMem m).reg y = s.reg y := rfl

/-! ### `State.setDisplay` -/

@[simp] theorem State.setDisplay_mem (d : Display) : (s.setDisplay d).mem = s.mem := rfl
@[simp] theorem State.setDisplay_pc (d : Display) : (s.setDisplay d).pc = s.pc := rfl
@[simp] theorem State.setDisplay_i (d : Display) : (s.setDisplay d).i = s.i := rfl
@[simp] theorem State.setDisplay_v (d : Display) : (s.setDisplay d).v = s.v := rfl
@[simp] theorem State.setDisplay_stack (d : Display) : (s.setDisplay d).stack = s.stack := rfl
@[simp] theorem State.setDisplay_sp (d : Display) : (s.setDisplay d).sp = s.sp := rfl
@[simp] theorem State.setDisplay_delayTimer (d : Display) : (s.setDisplay d).delayTimer = s.delayTimer := rfl
@[simp] theorem State.setDisplay_soundTimer (d : Display) : (s.setDisplay d).soundTimer = s.soundTimer := rfl
@[simp] theorem State.setDisplay_keys (d : Display) : (s.setDisplay d).keys = s.keys := rfl
@[simp] theorem State.setDisplay_display (d : Display) : (s.setDisplay d).display = d := rfl
@[simp] theorem State.setDisplay_draws (d : Display) : (s.setDisplay d).draws = s.draws := rfl
@[simp] theorem State.setDisplay_reg (d : Display) (y : RegIdx) : (s.setDisplay d).reg y = s.reg y := rfl

/-! ### `State.setKey` -/

@[simp] theorem State.setKey_mem (k : Fin 16) (p : Bool) : (s.setKey k p).mem = s.mem := rfl
@[simp] theorem State.setKey_pc (k : Fin 16) (p : Bool) : (s.setKey k p).pc = s.pc := rfl
@[simp] theorem State.setKey_i (k : Fin 16) (p : Bool) : (s.setKey k p).i = s.i := rfl
@[simp] theorem State.setKey_v (k : Fin 16) (p : Bool) : (s.setKey k p).v = s.v := rfl
@[simp] theorem State.setKey_stack (k : Fin 16) (p : Bool) : (s.setKey k p).stack = s.stack := rfl
@[simp] theorem State.setKey_sp (k : Fin 16) (p : Bool) : (s.setKey k p).sp = s.sp := rfl
@[simp] theorem State.setKey_delayTimer (k : Fin 16) (p : Bool) : (s.setKey k p).delayTimer = s.delayTimer := rfl
@[simp] theorem State.setKey_soundTimer (k : Fin 16) (p : Bool) : (s.setKey k p).soundTimer = s.soundTimer := rfl
@[simp] theorem State.setKey_keys (k : Fin 16) (p : Bool) : (s.setKey k p).keys = s.keys.set k.val p := rfl
@[simp] theorem State.setKey_display (k : Fin 16) (p : Bool) : (s.setKey k p).display = s.display := rfl
@[simp] theorem State.setKey_draws (k : Fin 16) (p : Bool) : (s.setKey k p).draws = s.draws := rfl
@[simp] theorem State.setKey_reg (k : Fin 16) (p : Bool) (y : RegIdx) : (s.setKey k p).reg y = s.reg y := rfl

/-! ### `State.setDraws` -/

@[simp] theorem State.setDraws_mem (n : Nat) : (s.setDraws n).mem = s.mem := rfl
@[simp] theorem State.setDraws_pc (n : Nat) : (s.setDraws n).pc = s.pc := rfl
@[simp] theorem State.setDraws_i (n : Nat) : (s.setDraws n).i = s.i := rfl
@[simp] theorem State.setDraws_v (n : Nat) : (s.setDraws n).v = s.v := rfl
@[simp] theorem State.setDraws_stack (n : Nat) : (s.setDraws n).stack = s.stack := rfl
@[simp] theorem State.setDraws_sp (n : Nat) : (s.setDraws n).sp = s.sp := rfl
@[simp] theorem State.setDraws_delayTimer (n : Nat) : (s.setDraws n).delayTimer = s.delayTimer := rfl
@[simp] theorem State.setDraws_soundTimer (n : Nat) : (s.setDraws n).soundTimer = s.soundTimer := rfl
@[simp] theorem State.setDraws_keys (n : Nat) : (s.setDraws n).keys = s.keys := rfl
@[simp] theorem State.setDraws_display (n : Nat) : (s.setDraws n).display = s.display := rfl
@[simp] theorem State.setDraws_draws (n : Nat) : (s.setDraws n).draws = n := rfl
@[simp] theorem State.setDraws_reg (n : Nat) (y : RegIdx) : (s.setDraws n).reg y = s.reg y := rfl
/-- The hardware's state is what is left when the supply of draws is forgotten (R20). -/
theorem State.toCpuState_toState : s.toCpuState.toState = s.setDraws 0 := rfl
@[simp] theorem State.setDraws_toCpuState (n : Nat) : (s.setDraws n).toCpuState = s.toCpuState := rfl
@[simp] theorem CpuState.toState_toCpuState (c : CpuState) : c.toState.toCpuState = c := rfl

/-! ### `State.draw8`: only the count of draws moves -/

@[simp] theorem State.draw8_fst : s.draw8.1 = Config.drawByte s.draws := rfl
@[simp] theorem State.draw8_snd_mem : s.draw8.2.mem = s.mem := rfl
@[simp] theorem State.draw8_snd_pc : s.draw8.2.pc = s.pc := rfl
@[simp] theorem State.draw8_snd_i : s.draw8.2.i = s.i := rfl
@[simp] theorem State.draw8_snd_v : s.draw8.2.v = s.v := rfl
@[simp] theorem State.draw8_snd_stack : s.draw8.2.stack = s.stack := rfl
@[simp] theorem State.draw8_snd_sp : s.draw8.2.sp = s.sp := rfl
@[simp] theorem State.draw8_snd_delayTimer : s.draw8.2.delayTimer = s.delayTimer := rfl
@[simp] theorem State.draw8_snd_soundTimer : s.draw8.2.soundTimer = s.soundTimer := rfl
@[simp] theorem State.draw8_snd_keys : s.draw8.2.keys = s.keys := rfl
@[simp] theorem State.draw8_snd_display : s.draw8.2.display = s.display := rfl
@[simp] theorem State.draw8_snd_draws : s.draw8.2.draws = s.draws + 1 := rfl
@[simp] theorem State.draw8_snd_reg (y : RegIdx) : s.draw8.2.reg y = s.reg y := rfl

/-! ### The derived updates reduce to those above -/

@[simp] theorem State.setFlag_eq (b : Byte) : s.setFlag b = s.setReg 15 b := rfl
@[simp] theorem State.advance_eq : s.advance = s.setPc (s.pc + 2) := rfl
@[simp] theorem State.rewind_eq : s.rewind = s.setPc (s.pc - 2) := rfl
@[simp] theorem State.skipIf_eq (c : Bool) : s.skipIf c = s.setPc (if c then s.pc + 2 else s.pc) := by
  cases c <;> rfl
@[simp] theorem State.setResultThenFlag_eq (x : RegIdx) (r f : Byte) :
    s.setResultThenFlag x r f = (s.setReg x r).setReg 15 f := rfl

/-! ### Registers -/

/-- What register `y` reads as after a write of register `x`. -/
theorem State.setReg_reg (x y : RegIdx) (b : Byte) :
    (s.setReg x b).reg y = if y = x then b else s.reg y := by
  simp only [State.reg, State.setReg, Vector.getElem_set, Fin.ext_iff, eq_comm]

@[simp] theorem State.setReg_reg_self (x : RegIdx) (b : Byte) : (s.setReg x b).reg x = b := by
  simp [State.setReg_reg]

theorem State.setReg_reg_ne {x y : RegIdx} (h : y ≠ x) (b : Byte) : (s.setReg x b).reg y = s.reg y := by
  simp [State.setReg_reg, h]

/-- What key `j` is after `setKey` of key `k`. -/
theorem State.setKey_isPressed (k j : Fin 16) (p : Bool) :
    (s.setKey k p).isPressed j = if j = k then p else s.isPressed j := by
  simp only [State.isPressed, State.setKey, Vector.getElem_set, Fin.ext_iff, eq_comm]

end

/-- Two states with the same fields are the same state. -/
theorem State.ext_fields {s t : State} (hm : s.mem = t.mem) (hpc : s.pc = t.pc) (hi : s.i = t.i) (hv : s.v = t.v)
    (hst : s.stack = t.stack) (hsp : s.sp = t.sp) (hd : s.delayTimer = t.delayTimer) (hs : s.soundTimer = t.soundTimer)
    (hk : s.keys = t.keys) (hdi : s.display = t.display) (hdr : s.draws = t.draws) : s = t := by
  obtain ⟨⟨⟩, _⟩ := s; obtain ⟨⟨⟩, _⟩ := t; simp_all

end Sys2Proof.Machine
end

