-- ==== Sys2Proof/Laws/Ops.lean ====
section
/-!
SUPPORT. For each shared operation, one lemma that says everything it can do: the range check, the store and load
sequences, the call stack, the fetch, the key operand and the least key.
-/
namespace Sys2Proof.Machine

@[simp] theorem oorPolicy_eq : oorPolicy = .fault := rfl
@[simp] theorem keyIndexPolicy_eq : keyIndexPolicy = .fault := rfl
@[simp] theorem byteAddr_fault (a : Nat) : byteAddr .fault a = a := rfl
@[simp] theorem byteAddr_wrap (a : Nat) : byteAddr .wrap a = a % 4096 := rfl
@[simp] theorem rangeFault_wrap (b : Word) (n : Nat) : rangeFault .wrap b n = none := rfl
@[simp] theorem flagReg_eq : flagReg = 15 := rfl

/-- The check of R67 on `n` bytes at `b`, in terms of the end `b + n`. -/
theorem rangeFault_eq (b : Word) (n : Nat) :
    rangeFault .fault b n =
      if 0 < n ∧ 4096 < b.toNat + n then some (.dataAddress (max b.toNat 4096)) else none := by
  exact if_congr (by omega) rfl rfl

/-- Reading back a sequence of in-range stores (R70): byte `k` of the sequence at `base + k`, every other address as before. -/
theorem storeSeq_read (base : Nat) (f : Nat → Byte) (n : Nat) (m : Memory) (a : Nat) :
    Memory.read (storeSeq .fault base f n m) a =
      if base ≤ a ∧ a < base + n then f (a - base) else Memory.read m a := by
  induction n with
  | zero => rw [if_neg (by omega)]; rfl
  | succ n ih =>
    rw [storeSeq, Memory.read_write, byteAddr_fault, ih]
    split_ifs <;> first | rfl | omega | (congr 1; omega)

/-- A sequence of stores whose addresses are inside memory keeps the canonical form. -/
theorem storeSeq_wf (p : OorPolicy) (base : Nat) (f : Nat → Byte) (n : Nat) {m : Memory} (h : Memory.wf m)
    (ha : ∀ k < n, byteAddr p (base + k) < 4096) : Memory.wf (storeSeq p base f n m) := by
  induction n with
  | zero => exact h
  | succ n ih => exact Memory.write_wf (ih fun k hk => ha k (by omega)) (ha n (by omega)) _

/-- Everything but the registers is untouched by a load sequence. -/
theorem State.loadSeq_frame (f : Nat → Byte) (n : Nat) (s : State) :
    (State.loadSeq f n s) = { s with v := (State.loadSeq f n s).v } := by
  induction n with
  | zero => rfl
  | succ n ih =>
    rw [State.loadSeq]
    unfold State.setRegAt
    split
    · rw [ih]; rfl
    · exact ih

/-- The registers after a load sequence (R175). -/
theorem State.loadSeq_reg (f : Nat → Byte) (n : Nat) (s : State) (y : RegIdx) :
    (State.loadSeq f n s).reg y = if y.val < n then f y.val else s.reg y := by
  induction n with
  | zero => simp [State.loadSeq]
  | succ n ih =>
    rw [State.loadSeq]
    unfold State.setRegAt
    split
    · rw [State.setReg_reg, ih]
      simp only [Fin.ext_iff]
      split_ifs <;> first | omega | rfl | simp_all
    · rw [ih]
      have := y.isLt
      split_ifs <;> first | omega | rfl

/-- The register a count names, for a count that is a register number. -/
theorem State.regAt_of_lt (s : State) {k : Nat} (h : k < 16) : s.regAt k = s.reg ⟨k, h⟩ := dif_pos h

/-- `CallStack.push` (R122): either it stores and counts up, or the stack is full, nothing changes and it reports. -/
theorem pushReturn_cases (a : Word) (s : State) :
    (∃ h : s.sp.val < 16, pushReturn a s =
        ({ s with stack := s.stack.set s.sp.val a, sp := ⟨s.sp.val + 1, by omega⟩ }, none)) ∨
      (s.sp.val = 16 ∧ pushReturn a s = (s, some .stackOverflow)) := by
  by_cases h : s.sp.val < 16
  · exact .inl ⟨h, dif_pos h⟩
  · exact .inr ⟨by have := s.sp.isLt; omega, dif_neg h⟩

/-- `CallStack.pop` (R120): either it counts down and sets `pc`, or the stack is empty, nothing changes and it reports. -/
theorem popReturn_cases (s : State) :
    (∃ h : 0 < s.sp.val, popReturn s =
        ({ s with sp := ⟨s.sp.val - 1, by omega⟩, pc := s.stack[s.sp.val - 1] }, none)) ∨
      (s.sp.val = 0 ∧ popReturn s = (s, some .stackUnderflow)) := by
  by_cases h : 0 < s.sp.val
  · exact .inl ⟨h, dif_pos h⟩
  · exact .inr ⟨by omega, dif_neg h⟩

/-- The fetch (R66): the big-endian word at `pc`, or the fault when `pc` is above 4094. -/
theorem fetch_eq (s : State) :
    fetch s = if 4094 < s.pc.toNat then .error (.fetchAddress s.pc) else .ok (Memory.readWord s.mem s.pc.toNat) := rfl

/-- The key operand under the default policy (R193). -/
theorem keyOperand_fault (s : State) (b : Byte) :
    keyOperand .fault s b = if h : b.toNat < 16 then .ok (s.isPressed ⟨b.toNat, h⟩) else .error (.keyIndex b) := rfl

/-- No key is down (R192). -/
theorem lowestKey_none {s : State} : lowestKey s = none ↔ ∀ k : Fin 16, s.isPressed k = false := by
  unfold lowestKey State.isPressed
  rw [List.findIdx?_eq_none_iff]
  constructor
  · intro h k
    exact h _ (by simp)
  · intro h x hx
    obtain ⟨k, hk, rfl⟩ := List.mem_iff_getElem.mp hx
    exact h ⟨k, by simpa using hk⟩

/-- The least key that is down (R192). -/
theorem lowestKey_some {s : State} {k : Nat} : lowestKey s = some k ↔
    ∃ h : k < 16, s.isPressed ⟨k, h⟩ = true ∧ ∀ j : Fin 16, j.val < k → s.isPressed j = false := by
  unfold lowestKey State.isPressed
  rw [List.findIdx?_eq_some_iff_getElem]
  constructor
  · rintro ⟨h, h1, h2⟩
    have hk : k < 16 := by simpa using h
    exact ⟨hk, by simpa using h1, fun j hj => by simpa using h2 j.val hj⟩
  · rintro ⟨h, h1, h2⟩
    refine ⟨by simpa using h, by simpa using h1, fun j hj => ?_⟩
    simpa using h2 ⟨j, by omega⟩ hj

end Sys2Proof.Machine
end

