-- ==== Sys2Proof/Laws/Draw.lean ====
section
/-!
SUPPORT. What flipping a cell, drawing a byte and drawing a sprite do to each cell and to the collision (R181).
-/
namespace Sys2Proof.Machine

/-- Flipping one cell leaves every other cell alone. -/
theorem Display.cell_flip (d : Display) (r r' : Fin 32) (c c' : Fin 64) :
    Display.cell (Display.flip d r c) r' c' =
      if r' = r ∧ c' = c then !Display.cell d r c else Display.cell d r' c' := by
  unfold Display.flip Display.cell
  by_cases hr : r' = r
  · subst hr
    by_cases hc : c' = c
    · subst hc; simp
    · have : ¬ c.val = c'.val := fun h => hc (Fin.ext h.symm)
      simp [hc, this]
  · have : ¬ r.val = r'.val := fun h => hr (Fin.ext h.symm)
    simp [hr, this]

/-- Framebuffers with the same cells are the same. -/
theorem Display.ext_cells {d e : Display} (h : ∀ r c, Display.cell d r c = Display.cell e r c) : d = e := by
  refine Vector.ext fun r hr => Vector.ext fun c hc => ?_
  exact h ⟨r, hr⟩ ⟨c, hc⟩

@[simp] theorem Display.cell_clear (r : Fin 32) (c : Fin 64) : Display.cell Display.clear r c = false := by
  simp [Display.cell, Display.clear]

/-- The columns of the bits of one sprite byte are distinct. -/
theorem spriteCol_inj {cx : Byte} {a b : Nat} (ha : a < 8) (hb : b < 8) (h : spriteCol cx a = spriteCol cx b) : a = b := by
  simp only [spriteCol, Fin.mk.injEq] at h; omega

/-- The rows of the lines of one sprite are distinct. -/
theorem spriteRow_inj {cy : Byte} {a b : Nat} (ha : a < 16) (hb : b < 16) (h : spriteRow cy a = spriteRow cy b) : a = b := by
  simp only [spriteRow, Fin.mk.injEq] at h; omega

/-- Sprite line `line` of byte `b`, restricted to its first `n` bits, covers a cell. -/
def lineCovers (b cx cy : Byte) (line n : Nat) (r : Fin 32) (c : Fin 64) : Prop :=
  r = spriteRow cy line ∧ ∃ k < n, spriteBit b k = true ∧ c = spriteCol cx k

/-- A sprite's first `n` lines cover a cell. -/
def spriteCovers (rows : Nat → Byte) (cx cy : Byte) (n : Nat) (r : Fin 32) (c : Fin 64) : Prop :=
  ∃ l < n, lineCovers (rows l) cx cy l 8 r c

open Classical in
/-- Drawing the first `n` bits of a byte flips exactly the cells they cover, and records whether one of them was set. -/
theorem drawBits_spec (b cx cy : Byte) (line : Nat) {n : Nat} (hn : n ≤ 8) (a : Drawing) :
    (∀ r c, Display.cell (drawBits b cx cy line n a).1 r c =
      if lineCovers b cx cy line n r c then !Display.cell a.1 r c else Display.cell a.1 r c) ∧
    ((drawBits b cx cy line n a).2 = true ↔
      a.2 = true ∨ ∃ r c, lineCovers b cx cy line n r c ∧ Display.cell a.1 r c = true) := by
  induction n with
  | zero => simp [drawBits, lineCovers]
  | succ n ih =>
    obtain ⟨ih1, ih2⟩ := ih (by omega)
    have hstep : ∀ r c, lineCovers b cx cy line (n + 1) r c ↔
        lineCovers b cx cy line n r c ∨
          (spriteBit b n = true ∧ r = spriteRow cy line ∧ c = spriteCol cx n) := by
      intro r c
      constructor
      · rintro ⟨h1, k, hk, h2, h3⟩
        by_cases hkn : k = n
        · subst hkn; exact .inr ⟨h2, h1, h3⟩
        · exact .inl ⟨h1, k, by omega, h2, h3⟩
      · rintro (⟨h1, k, hk, h2, h3⟩ | ⟨h1, h2, h3⟩)
        · exact ⟨h1, k, by omega, h2, h3⟩
        · exact ⟨h2, n, by omega, h1, h3⟩
    have hnew : ¬ lineCovers b cx cy line n (spriteRow cy line) (spriteCol cx n) := by
      rintro ⟨-, k, hk, -, h3⟩
      have := spriteCol_inj (by omega) (by omega) h3
      omega
    by_cases hb : spriteBit b n = true
    · simp only [drawBits, hb, if_true, drawCell]
      refine ⟨fun r c => ?_, ?_⟩
      · rw [Display.cell_flip, ih1, ih1, if_neg hnew]
        by_cases h : r = spriteRow cy line ∧ c = spriteCol cx n
        · obtain ⟨rfl, rfl⟩ := h
          rw [if_pos ⟨rfl, rfl⟩, if_pos ((hstep _ _).mpr (.inr ⟨hb, rfl, rfl⟩))]
        · rw [if_neg h]
          have : lineCovers b cx cy line (n + 1) r c ↔ lineCovers b cx cy line n r c := by
            rw [hstep]; tauto
          simp only [this]
      · rw [Bool.or_eq_true, ih2, ih1, if_neg hnew]
        constructor
        · rintro ((h | ⟨r, c, h1, h2⟩) | h)
          · exact .inl h
          · exact .inr ⟨r, c, (hstep r c).mpr (.inl h1), h2⟩
          · exact .inr ⟨_, _, (hstep _ _).mpr (.inr ⟨hb, rfl, rfl⟩), h⟩
        · rintro (h | ⟨r, c, h1, h2⟩)
          · exact .inl (.inl h)
          · rcases (hstep r c).mp h1 with h1 | ⟨-, rfl, rfl⟩
            · exact .inl (.inr ⟨r, c, h1, h2⟩)
            · exact .inr h2
    · have : ∀ r c, lineCovers b cx cy line (n + 1) r c ↔ lineCovers b cx cy line n r c := by
        intro r c; rw [hstep]; tauto
      simp only [drawBits, hb, Bool.false_eq_true, if_false, this]
      exact ⟨ih1, ih2⟩

open Classical in
/-- Drawing a sprite flips exactly the cells it covers, and records whether one of them was set (R181, R183). -/
theorem drawLines_spec (rows : Nat → Byte) (cx cy : Byte) {n : Nat} (hn : n ≤ 16) (a : Drawing) :
    (∀ r c, Display.cell (drawLines rows cx cy n a).1 r c =
      if spriteCovers rows cx cy n r c then !Display.cell a.1 r c else Display.cell a.1 r c) ∧
    ((drawLines rows cx cy n a).2 = true ↔
      a.2 = true ∨ ∃ r c, spriteCovers rows cx cy n r c ∧ Display.cell a.1 r c = true) := by
  induction n with
  | zero => simp [drawLines, spriteCovers]
  | succ n ih =>
    obtain ⟨ih1, ih2⟩ := ih (by omega)
    obtain ⟨hb1, hb2⟩ := drawBits_spec (rows n) cx cy n (le_refl 8) (drawLines rows cx cy n a)
    have hstep : ∀ r c, spriteCovers rows cx cy (n + 1) r c ↔
        spriteCovers rows cx cy n r c ∨ lineCovers (rows n) cx cy n 8 r c := by
      intro r c
      constructor
      · rintro ⟨l, hl, h⟩
        by_cases hln : l = n
        · subst hln; exact .inr h
        · exact .inl ⟨l, by omega, h⟩
      · rintro (⟨l, hl, h⟩ | h)
        · exact ⟨l, by omega, h⟩
        · exact ⟨n, by omega, h⟩
    have hdisj : ∀ r c, lineCovers (rows n) cx cy n 8 r c → ¬ spriteCovers rows cx cy n r c := by
      rintro r c ⟨h1, -⟩ ⟨l, hl, h2, -⟩
      have := spriteRow_inj (by omega) (by omega) (h1.symm.trans h2)
      omega
    refine ⟨fun r c => ?_, ?_⟩
    · rw [drawLines, hb1, ih1]
      simp only [hstep]
      by_cases h : lineCovers (rows n) cx cy n 8 r c
      · rw [if_pos h, if_neg (hdisj r c h), if_pos (.inr h)]
      · rw [if_neg h]; simp only [h, or_false]
    · rw [drawLines, hb2, ih2]
      constructor
      · rintro ((h | ⟨r, c, h1, h2⟩) | ⟨r, c, h1, h2⟩)
        · exact .inl h
        · exact .inr ⟨r, c, (hstep r c).mpr (.inl h1), h2⟩
        · rw [ih1, if_neg (hdisj r c h1)] at h2
          exact .inr ⟨r, c, (hstep r c).mpr (.inr h1), h2⟩
      · rintro (h | ⟨r, c, h1, h2⟩)
        · exact .inl (.inl h)
        · rcases (hstep r c).mp h1 with h1 | h1
          · exact .inl (.inr ⟨r, c, h1, h2⟩)
          · exact .inr ⟨r, c, h1, by rw [ih1, if_neg (hdisj r c h1)]; exact h2⟩

end Sys2Proof.Machine
end

