-- ==== Sys2Proof/Laws/Fields.lean ====
section
/-!
SUPPORT. The words the formats build as numbers, their fields (R93, R94), and the two bytes of a word (R62).
-/
namespace Sys2Proof

/-- A concatenation as a number: the high part counts in units of the low part's width (R10). -/
theorem toNat_append_eq {m n : Nat} (a : BitVec m) (b : BitVec n) : (a ++ b).toNat = a.toNat * 2 ^ n + b.toNat := by
  rw [BitVec.toNat_append, ← Nat.shiftLeft_add_eq_or_of_lt b.isLt, Nat.shiftLeft_eq]

theorem formatA_toNat (d : Nibble) (a : Addr12) : (formatA d a).toNat = d.toNat * 4096 + a.toNat :=
  toNat_append_eq d a

theorem formatI_toNat (d : Nibble) (x : RegIdx) (b : Byte) :
    (formatI d x b).toNat = d.toNat * 4096 + x.val * 256 + b.toNat := by
  rw [show (formatI d x b).toNat = (d ++ (BitVec.ofFin x : Nibble) ++ b).toNat from rfl, toNat_append_eq, toNat_append_eq]
  simp only [BitVec.toNat_ofFin]
  omega

theorem formatR_toNat (d : Nibble) (x y : RegIdx) (n : Nibble) :
    (formatR d x y n).toNat = d.toNat * 4096 + x.val * 256 + y.val * 16 + n.toNat := by
  rw [show (formatR d x y n).toNat = (d ++ (BitVec.ofFin x : Nibble) ++ (BitVec.ofFin y : Nibble) ++ n).toNat from rfl,
    toNat_append_eq, toNat_append_eq, toNat_append_eq]
  simp only [BitVec.toNat_ofFin]
  omega

theorem digit3_toNat (w : Word) : (digit3 w).toNat = w.toNat / 4096 := by
  have := w.isLt
  simp only [digit3, BitVec.extractLsb'_toNat, Nat.shiftRight_eq_div_pow]; omega

theorem fieldX_val (w : Word) : (fieldX w).val = w.toNat / 256 % 16 := by
  simp only [fieldX, BitVec.val_toFin, BitVec.extractLsb'_toNat, Nat.shiftRight_eq_div_pow]

theorem fieldY_val (w : Word) : (fieldY w).val = w.toNat / 16 % 16 := by
  simp only [fieldY, BitVec.val_toFin, BitVec.extractLsb'_toNat, Nat.shiftRight_eq_div_pow]

theorem fieldN_toNat (w : Word) : (fieldN w).toNat = w.toNat % 16 := by
  simp only [fieldN, BitVec.extractLsb'_toNat, Nat.shiftRight_eq_div_pow]; omega

theorem fieldNN_toNat (w : Word) : (fieldNN w).toNat = w.toNat % 256 := by
  simp only [fieldNN, BitVec.extractLsb'_toNat, Nat.shiftRight_eq_div_pow]; omega

theorem fieldNNN_toNat (w : Word) : (fieldNNN w).toNat = w.toNat % 4096 := by
  simp only [fieldNNN, BitVec.extractLsb'_toNat, Nat.shiftRight_eq_div_pow]; omega

section
variable (d n : Nibble) (a : Addr12) (b : Byte) (x y : RegIdx)

@[simp] theorem digit3_formatA : digit3 (formatA d a) = d :=
  BitVec.eq_of_toNat_eq (by have := a.isLt; rw [digit3_toNat, formatA_toNat]; omega)

@[simp] theorem fieldNNN_formatA : fieldNNN (formatA d a) = a :=
  BitVec.eq_of_toNat_eq (by have := a.isLt; rw [fieldNNN_toNat, formatA_toNat]; omega)

@[simp] theorem digit3_formatI : digit3 (formatI d x b) = d :=
  BitVec.eq_of_toNat_eq (by have := b.isLt; have := x.isLt; rw [digit3_toNat, formatI_toNat]; omega)

@[simp] theorem fieldX_formatI : fieldX (formatI d x b) = x :=
  Fin.ext (by have := b.isLt; have := x.isLt; rw [fieldX_val, formatI_toNat]; omega)

@[simp] theorem fieldNN_formatI : fieldNN (formatI d x b) = b :=
  BitVec.eq_of_toNat_eq (by have := b.isLt; have := x.isLt; rw [fieldNN_toNat, formatI_toNat]; omega)

@[simp] theorem digit3_formatR : digit3 (formatR d x y n) = d :=
  BitVec.eq_of_toNat_eq (by
    have := n.isLt; have := x.isLt; have := y.isLt; rw [digit3_toNat, formatR_toNat]; omega)

@[simp] theorem fieldX_formatR : fieldX (formatR d x y n) = x :=
  Fin.ext (by have := n.isLt; have := x.isLt; have := y.isLt; rw [fieldX_val, formatR_toNat]; omega)

@[simp] theorem fieldY_formatR : fieldY (formatR d x y n) = y :=
  Fin.ext (by have := n.isLt; have := x.isLt; have := y.isLt; rw [fieldY_val, formatR_toNat]; omega)

@[simp] theorem fieldN_formatR : fieldN (formatR d x y n) = n :=
  BitVec.eq_of_toNat_eq (by
    have := n.isLt; have := x.isLt; have := y.isLt; rw [fieldN_toNat, formatR_toNat]; omega)

end

/-- A word whose high digit is known is the word of format A of its address field (R93). -/
theorem formatA_fields {w : Word} {d : Nibble} (h : (digit3 w).toNat = d.toNat) : formatA d (fieldNNN w) = w := by
  apply BitVec.eq_of_toNat_eq; rw [formatA_toNat, fieldNNN_toNat, ← h, digit3_toNat]; omega

/-- A word whose high digit is known is the word of format I of its fields (R93). -/
theorem formatI_fields {w : Word} {d : Nibble} (h : (digit3 w).toNat = d.toNat) :
    formatI d (fieldX w) (fieldNN w) = w := by
  apply BitVec.eq_of_toNat_eq; rw [formatI_toNat, fieldX_val, fieldNN_toNat, ← h, digit3_toNat]; omega

/-- A word whose high and low digits are known is the word of format R of its fields (R93). -/
theorem formatR_fields {w : Word} {d n : Nibble} (h : (digit3 w).toNat = d.toNat) (hn : (fieldN w).toNat = n.toNat) :
    formatR d (fieldX w) (fieldY w) n = w := by
  apply BitVec.eq_of_toNat_eq; rw [formatR_toNat, fieldX_val, fieldY_val, ← hn, fieldN_toNat, ← h, digit3_toNat]; omega

theorem hiByte_toNat (w : Word) : (hiByte w).toNat = w.toNat / 256 := by
  have := w.isLt
  simp only [hiByte, BitVec.extractLsb'_toNat, Nat.shiftRight_eq_div_pow]; omega

theorem loByte_toNat (w : Word) : (loByte w).toNat = w.toNat % 256 := by
  simp only [loByte, BitVec.extractLsb'_toNat, Nat.shiftRight_eq_div_pow]; omega

theorem wordOfBytes_toNat (h l : Byte) : (wordOfBytes h l).toNat = h.toNat * 256 + l.toNat := toNat_append_eq h l

/-- A word is its two bytes, high byte first (R62). -/
@[simp] theorem wordOfBytes_bytes (w : Word) : wordOfBytes (hiByte w) (loByte w) = w :=
  BitVec.eq_of_toNat_eq (by rw [wordOfBytes_toNat, hiByte_toNat, loByte_toNat]; omega)

end Sys2Proof
end

