-- ==== Sys2Proof/Laws/Frame.lean ====
section
/-!
SUPPORT. The frame of each update and each shared operation, in the terms of `SameBut`; and the six meanings that can fault as
one equation each.
-/
namespace Sys2Proof.Machine

theorem SameBut.refl (w : Piece → Prop) (s : State) : SameBut w s s := fun _ _ => rfl

theorem SameBut.mono {w w' : Piece → Prop} {s t : State} (h : SameBut w s t) (hw : ∀ p, w p → w' p) : SameBut w' s t :=
  fun p hp => h p fun hq => hp (hw p hq)

theorem SameBut.trans {w : Piece → Prop} {s t u : State} (h1 : SameBut w s t) (h2 : SameBut w t u) : SameBut w s u :=
  fun p hp => (h2 p hp).trans (h1 p hp)

section
variable (s : State)

theorem setReg_frame (x : RegIdx) (b : Byte) : SameBut (fun p => p = .reg x) s (s.setReg x b) := by
  intro p hp
  cases p with
  | reg y => simp [State.piece, State.setReg_reg_ne s (x := x) (y := y) (fun h => hp (h ▸ rfl))]
  | _ => rfl

theorem setPc_frame (a : Word) : SameBut (fun p => p = .pc) s (s.setPc a) := by
  intro p hp
  cases p with
  | pc => exact absurd rfl hp
  | _ => rfl

theorem setI_frame (a : Word) : SameBut (fun p => p = .i) s (s.setI a) := by
  intro p hp
  cases p with
  | i => exact absurd rfl hp
  | _ => rfl

theorem setDelayTimer_frame (b : Byte) : SameBut (fun p => p = .delayTimer) s (s.setDelayTimer b) := by
  intro p hp
  cases p with
  | delayTimer => exact absurd rfl hp
  | _ => rfl

theorem setSoundTimer_frame (b : Byte) : SameBut (fun p => p = .soundTimer) s (s.setSoundTimer b) := by
  intro p hp
  cases p with
  | soundTimer => exact absurd rfl hp
  | _ => rfl

theorem setDisplay_frame (d : Display) : SameBut (fun p => ∃ r c, p = .cell r c) s (s.setDisplay d) := by
  intro p hp
  cases p with
  | cell r c => exact absurd ⟨r, c, rfl⟩ hp
  | _ => rfl

theorem setKey_frame (k : Fin 16) (b : Bool) : SameBut (fun p => p = .key k) s (s.setKey k b) := by
  intro p hp
  cases p with
  | key j => simp [State.piece, State.setKey_isPressed, show j ≠ k from fun h => hp (h ▸ rfl)]
  | _ => rfl

theorem draw8_frame : SameBut (fun p => p = .draws) s s.draw8.2 := by
  intro p hp
  cases p with
  | draws => exact absurd rfl hp
  | _ => rfl

/-- A sequence of stores changes the bytes it stores and nothing else (R65). -/
theorem storeSeq_frame (base : Nat) (f : Nat → Byte) (n : Nat) :
    SameBut (fun p => ∃ a, p = .byte a ∧ base ≤ a ∧ a < base + n) s (s.setMem (storeSeq .fault base f n s.mem)) := by
  intro p hp
  cases p with
  | byte a =>
    simp only [State.piece, State.setMem_mem, storeSeq_read]
    rw [if_neg fun h => hp ⟨a, rfl, h⟩]
  | _ => rfl

/-- A sequence of loads changes the registers it loads and nothing else. -/
theorem loadSeq_frame (f : Nat → Byte) (n : Nat) :
    SameBut (fun p => ∃ y : RegIdx, p = .reg y ∧ y.val < n) s (State.loadSeq f n s) := by
  intro p hp
  cases p with
  | reg y =>
    simp only [State.piece, State.loadSeq_reg]
    rw [if_neg fun h => hp ⟨y, rfl, h⟩]
  | _ => rw [State.loadSeq_frame]; rfl

/-- A push changes the stack pointer and the entry it fills (R122). -/
theorem pushReturn_frame (a : Word) :
    SameBut (fun p => p = .sp ∨ ∃ h : s.sp.val < 16, p = .stackEntry ⟨s.sp.val, h⟩) s (pushReturn a s).1 := by
  rcases pushReturn_cases a s with ⟨h, he⟩ | ⟨_, he⟩ <;> rw [he]
  · intro p hp
    cases p with
    | sp => exact absurd (.inl rfl) hp
    | stackEntry k =>
      have hk : ¬ s.sp.val = k.val := fun hk => hp (.inr ⟨h, by congr 1; exact Fin.ext hk.symm⟩)
      simp [State.piece, hk]
    | _ => rfl
  · exact SameBut.refl _ _

/-- A pop changes the stack pointer and `pc`; the popped entry stays (R120, R29). -/
theorem popReturn_frame : SameBut (fun p => p = .pc ∨ p = .sp) s (popReturn s).1 := by
  rcases popReturn_cases s with ⟨h, he⟩ | ⟨_, he⟩ <;> rw [he]
  · intro p hp
    cases p with
    | pc => exact absurd (.inl rfl) hp
    | sp => exact absurd (.inr rfl) hp
    | _ => rfl
  · exact SameBut.refl _ _

end

/-! ### Call and return, by the cases of the call stack (R120, R122) -/

theorem execCall_cases (nnn : Addr12) (s : State) :
    (∃ h : s.sp.val < 16, report (.call nnn) s = none ∧ execCall nnn s = .next
        { s with stack := s.stack.set s.sp.val s.pc, sp := ⟨s.sp.val + 1, by omega⟩, pc := addrOperand nnn }) ∨
      (s.sp.val = 16 ∧ report (.call nnn) s = some .stackOverflow ∧
        execCall nnn s = .next (s.setPc (addrOperand nnn))) := by
  rcases pushReturn_cases s.pc s with ⟨h, he⟩ | ⟨h, he⟩
  · exact .inl ⟨h, by simp only [report, callEffect, he], by simp only [execCall, callEffect, completed, he]; rfl⟩
  · exact .inr ⟨h, by simp only [report, callEffect, he], by simp only [execCall, callEffect, completed, he]⟩

theorem execRet_cases (s : State) :
    (∃ h : 0 < s.sp.val, report .ret s = none ∧ execRet s = .next
        { s with sp := ⟨s.sp.val - 1, by omega⟩, pc := s.stack[s.sp.val - 1] }) ∨
      (s.sp.val = 0 ∧ report .ret s = some .stackUnderflow ∧ execRet s = .next s) := by
  rcases popReturn_cases s with ⟨h, he⟩ | ⟨h, he⟩
  · exact .inl ⟨h, by simp only [report, retEffect, he], by simp only [execRet, retEffect, completed, he]⟩
  · exact .inr ⟨h, by simp only [report, retEffect, he], by simp only [execRet, retEffect, completed, he]⟩

/-! ### The skips on registers, as a choice of `pc` (R130 to R134) -/

theorem skipIf_decide (s : State) (c : Prop) [Decidable c] :
    s.skipIf (decide c) = s.setPc (if c then s.pc + 2 else s.pc) := by
  by_cases h : c <;> simp [h]

theorem execSeImm_eq (x : RegIdx) (nn : Byte) (s : State) :
    execSeImm x nn s = .next (s.setPc (if s.reg x = nn then s.pc + 2 else s.pc)) := by
  rw [execSeImm, skipIf_decide]

theorem execSneImm_eq (x : RegIdx) (nn : Byte) (s : State) :
    execSneImm x nn s = .next (s.setPc (if s.reg x ≠ nn then s.pc + 2 else s.pc)) := by
  rw [execSneImm, skipIf_decide]

theorem execSeReg_eq (x y : RegIdx) (s : State) :
    execSeReg x y s = .next (s.setPc (if s.reg x = s.reg y then s.pc + 2 else s.pc)) := by
  rw [execSeReg, skipIf_decide]

theorem execSneReg_eq (x y : RegIdx) (s : State) :
    execSneReg x y s = .next (s.setPc (if s.reg x ≠ s.reg y then s.pc + 2 else s.pc)) := by
  rw [execSneReg, skipIf_decide]

/-! ### The six meanings that can fault, each as one equation (R67, R193) -/

theorem execLdB_eq (x : RegIdx) (s : State) :
    execLdB x s = if 4093 < s.i.toNat then .fault (.dataAddress (max s.i.toNat 4096))
      else .next (s.setMem (storeSeq .fault s.i.toNat (decimalDigit (s.reg x)) 3 s.mem)) := by
  unfold execLdB storeDigits
  rw [oorPolicy_eq, rangeFault_eq]
  by_cases h : 4093 < s.i.toNat
  · rw [if_pos (by omega), if_pos h]
  · rw [if_neg (by omega), if_neg h]

theorem execStRegs_eq (x : RegIdx) (s : State) :
    execStRegs x s = if 4095 < s.i.toNat + x.val then .fault (.dataAddress (max s.i.toNat 4096))
      else .next ((s.setMem (storeSeq .fault s.i.toNat s.regAt (x.val + 1) s.mem)).setI
        (s.i + BitVec.ofNat 16 (x.val + 1))) := by
  unfold execStRegs storeRegs regCount
  rw [oorPolicy_eq, rangeFault_eq]
  by_cases h : 4095 < s.i.toNat + x.val
  · rw [if_pos (by omega), if_pos h]
  · rw [if_neg (by omega), if_neg h]

theorem execLdRegs_eq (x : RegIdx) (s : State) :
    execLdRegs x s = if 4095 < s.i.toNat + x.val then .fault (.dataAddress (max s.i.toNat 4096))
      else .next (State.loadSeq (fun k => Memory.read s.mem (s.i.toNat + k)) (x.val + 1) s) := by
  unfold execLdRegs loadRegs regCount
  rw [oorPolicy_eq, rangeFault_eq]
  by_cases h : 4095 < s.i.toNat + x.val
  · rw [if_pos (by omega), if_pos h]
  · rw [if_neg (by omega), if_neg h]; rfl

/-- The framebuffer and the collision Dxyn leaves when it completes. -/
def drawn (x y : RegIdx) (n : Nibble) (s : State) : Drawing :=
  drawLines (fun k => Memory.read s.mem (s.i.toNat + k)) (s.reg x) (s.reg y) n.toNat (s.display, false)

theorem execDrw_eq (x y : RegIdx) (n : Nibble) (s : State) :
    execDrw x y n s = if 0 < n.toNat ∧ 4096 < s.i.toNat + n.toNat then .fault (.dataAddress (max s.i.toNat 4096))
      else .next ((s.setDisplay (drawn x y n s).1).setReg 15 (flagByte (drawn x y n s).2)) := by
  unfold execDrw drawSprite
  rw [oorPolicy_eq, rangeFault_eq]
  split_ifs <;> rfl

theorem execSkp_eq (x : RegIdx) (s : State) :
    execSkp x s = if h : (s.reg x).toNat < 16 then
        .next (s.setPc (if s.isPressed ⟨(s.reg x).toNat, h⟩ then s.pc + 2 else s.pc))
      else .fault (.keyIndex (s.reg x)) := by
  unfold execSkp skipOnKey
  rw [keyIndexPolicy_eq, keyOperand_fault]
  by_cases h : (s.reg x).toNat < 16
  · rw [dif_pos h, dif_pos h]
    cases s.isPressed ⟨(s.reg x).toNat, h⟩ <;> simp
  · rw [dif_neg h, dif_neg h]

theorem execSknp_eq (x : RegIdx) (s : State) :
    execSknp x s = if h : (s.reg x).toNat < 16 then
        .next (s.setPc (if s.isPressed ⟨(s.reg x).toNat, h⟩ then s.pc else s.pc + 2))
      else .fault (.keyIndex (s.reg x)) := by
  unfold execSknp skipOnKey
  rw [keyIndexPolicy_eq, keyOperand_fault]
  by_cases h : (s.reg x).toNat < 16
  · rw [dif_pos h, dif_pos h]
    cases s.isPressed ⟨(s.reg x).toNat, h⟩ <;> simp
  · rw [dif_neg h, dif_neg h]

end Sys2Proof.Machine
end

