-- ==== Sys2Proof/Laws/PerInstr.lean ====
section
/-!
SUPPORT. Statements made for every instruction, one lemma per constructor. `WellFormed`: an instruction's operands fit their
fields (R94). `Pattern`: an instruction's word has the fixed digits of its pattern (R95), the patterns being the names of the
rows of spec/opcode_table.json.
-/
namespace Sys2Proof.Laws

theorem regOk_val (x : RegIdx) : Operands.regOk x.val = true := by simp [Operands.regOk]
theorem byteOk_toNat (b : Byte) : Operands.byteOk b.toNat = true := by
  have := b.isLt; simp [Operands.byteOk]; omega
theorem nibbleOk_toNat (n : Nibble) : Operands.nibbleOk n.toNat = true := by
  have := n.isLt; simp [Operands.nibbleOk]; omega
theorem addrOk_toNat (a : Addr12) : Operands.addrOk a.toNat = true := by
  have := a.isLt; simp [Operands.addrOk]; omega

namespace WellFormed

/-- The operands fit (R94). -/
def Statement (i : Instr) : Prop := i.wf = true

theorem cls : Statement .cls := rfl
theorem ret : Statement .ret := rfl
theorem jp (nnn : Addr12) : Statement (.jp nnn) := by
  simp [Statement, Instr.wf, Instr.operands, Operands.wf, addrOk_toNat]
theorem call (nnn : Addr12) : Statement (.call nnn) := by
  simp [Statement, Instr.wf, Instr.operands, Operands.wf, addrOk_toNat]
theorem seImm (x : RegIdx) (nn : Byte) : Statement (.seImm x nn) := by
  simp [Statement, Instr.wf, Instr.operands, Operands.wf, byteOk_toNat, regOk_val]
theorem sneImm (x : RegIdx) (nn : Byte) : Statement (.sneImm x nn) := by
  simp [Statement, Instr.wf, Instr.operands, Operands.wf, byteOk_toNat, regOk_val]
theorem seReg (x : RegIdx) (y : RegIdx) : Statement (.seReg x y) := by
  simp [Statement, Instr.wf, Instr.operands, Operands.wf, regOk_val]
theorem ldImm (x : RegIdx) (nn : Byte) : Statement (.ldImm x nn) := by
  simp [Statement, Instr.wf, Instr.operands, Operands.wf, byteOk_toNat, regOk_val]
theorem addImm (x : RegIdx) (nn : Byte) : Statement (.addImm x nn) := by
  simp [Statement, Instr.wf, Instr.operands, Operands.wf, byteOk_toNat, regOk_val]
theorem ldReg (x : RegIdx) (y : RegIdx) : Statement (.ldReg x y) := by
  simp [Statement, Instr.wf, Instr.operands, Operands.wf, regOk_val]
theorem orReg (x : RegIdx) (y : RegIdx) : Statement (.orReg x y) := by
  simp [Statement, Instr.wf, Instr.operands, Operands.wf, regOk_val]
theorem andReg (x : RegIdx) (y : RegIdx) : Statement (.andReg x y) := by
  simp [Statement, Instr.wf, Instr.operands, Operands.wf, regOk_val]
theorem xorReg (x : RegIdx) (y : RegIdx) : Statement (.xorReg x y) := by
  simp [Statement, Instr.wf, Instr.operands, Operands.wf, regOk_val]
theorem addReg (x : RegIdx) (y : RegIdx) : Statement (.addReg x y) := by
  simp [Statement, Instr.wf, Instr.operands, Operands.wf, regOk_val]
theorem sub (x : RegIdx) (y : RegIdx) : Statement (.sub x y) := by
  simp [Statement, Instr.wf, Instr.operands, Operands.wf, regOk_val]
theorem shr (x : RegIdx) (y : RegIdx) : Statement (.shr x y) := by
  simp [Statement, Instr.wf, Instr.operands, Operands.wf, regOk_val]
theorem subn (x : RegIdx) (y : RegIdx) : Statement (.subn x y) := by
  simp [Statement, Instr.wf, Instr.operands, Operands.wf, regOk_val]
theorem shl (x : RegIdx) (y : RegIdx) : Statement (.shl x y) := by
  simp [Statement, Instr.wf, Instr.operands, Operands.wf, regOk_val]
theorem sneReg (x : RegIdx) (y : RegIdx) : Statement (.sneReg x y) := by
  simp [Statement, Instr.wf, Instr.operands, Operands.wf, regOk_val]
theorem ldI (nnn : Addr12) : Statement (.ldI nnn) := by
  simp [Statement, Instr.wf, Instr.operands, Operands.wf, addrOk_toNat]
theorem jpV0 (nnn : Addr12) : Statement (.jpV0 nnn) := by
  simp [Statement, Instr.wf, Instr.operands, Operands.wf, addrOk_toNat]
theorem rnd (x : RegIdx) (nn : Byte) : Statement (.rnd x nn) := by
  simp [Statement, Instr.wf, Instr.operands, Operands.wf, byteOk_toNat, regOk_val]
theorem drw (x : RegIdx) (y : RegIdx) (n : Nibble) : Statement (.drw x y n) := by
  simp [Statement, Instr.wf, Instr.operands, Operands.wf, nibbleOk_toNat, regOk_val]
theorem skp (x : RegIdx) : Statement (.skp x) := by
  simp [Statement, Instr.wf, Instr.operands, Operands.wf, regOk_val]
theorem sknp (x : RegIdx) : Statement (.sknp x) := by
  simp [Statement, Instr.wf, Instr.operands, Operands.wf, regOk_val]
theorem ldVxDt (x : RegIdx) : Statement (.ldVxDt x) := by
  simp [Statement, Instr.wf, Instr.operands, Operands.wf, regOk_val]
theorem ldVxK (x : RegIdx) : Statement (.ldVxK x) := by
  simp [Statement, Instr.wf, Instr.operands, Operands.wf, regOk_val]
theorem ldDtVx (x : RegIdx) : Statement (.ldDtVx x) := by
  simp [Statement, Instr.wf, Instr.operands, Operands.wf, regOk_val]
theorem ldStVx (x : RegIdx) : Statement (.ldStVx x) := by
  simp [Statement, Instr.wf, Instr.operands, Operands.wf, regOk_val]
theorem addI (x : RegIdx) : Statement (.addI x) := by
  simp [Statement, Instr.wf, Instr.operands, Operands.wf, regOk_val]
theorem ldF (x : RegIdx) : Statement (.ldF x) := by
  simp [Statement, Instr.wf, Instr.operands, Operands.wf, regOk_val]
theorem ldB (x : RegIdx) : Statement (.ldB x) := by
  simp [Statement, Instr.wf, Instr.operands, Operands.wf, regOk_val]
theorem stRegs (x : RegIdx) : Statement (.stRegs x) := by
  simp [Statement, Instr.wf, Instr.operands, Operands.wf, regOk_val]
theorem ldRegs (x : RegIdx) : Statement (.ldRegs x) := by
  simp [Statement, Instr.wf, Instr.operands, Operands.wf, regOk_val]

end WellFormed

namespace Pattern

/-- The four digits of an instruction's pattern, most significant first; `none` where a letter names a field. -/
def digits : Instr → List (Option Nat)
  | .cls => [some 0x0, some 0x0, some 0xE, some 0x0]
  | .ret => [some 0x0, some 0x0, some 0xE, some 0xE]
  | .jp _ => [some 0x1, none, none, none]
  | .call _ => [some 0x2, none, none, none]
  | .seImm _ _ => [some 0x3, none, none, none]
  | .sneImm _ _ => [some 0x4, none, none, none]
  | .seReg _ _ => [some 0x5, none, none, some 0x0]
  | .ldImm _ _ => [some 0x6, none, none, none]
  | .addImm _ _ => [some 0x7, none, none, none]
  | .ldReg _ _ => [some 0x8, none, none, some 0x0]
  | .orReg _ _ => [some 0x8, none, none, some 0x1]
  | .andReg _ _ => [some 0x8, none, none, some 0x2]
  | .xorReg _ _ => [some 0x8, none, none, some 0x3]
  | .addReg _ _ => [some 0x8, none, none, some 0x4]
  | .sub _ _ => [some 0x8, none, none, some 0x5]
  | .shr _ _ => [some 0x8, none, none, some 0x6]
  | .subn _ _ => [some 0x8, none, none, some 0x7]
  | .shl _ _ => [some 0x8, none, none, some 0xE]
  | .sneReg _ _ => [some 0x9, none, none, some 0x0]
  | .ldI _ => [some 0xA, none, none, none]
  | .jpV0 _ => [some 0xB, none, none, none]
  | .rnd _ _ => [some 0xC, none, none, none]
  | .drw _ _ _ => [some 0xD, none, none, none]
  | .skp _ => [some 0xE, none, some 0x9, some 0xE]
  | .sknp _ => [some 0xE, none, some 0xA, some 0x1]
  | .ldVxDt _ => [some 0xF, none, some 0x0, some 0x7]
  | .ldVxK _ => [some 0xF, none, some 0x0, some 0xA]
  | .ldDtVx _ => [some 0xF, none, some 0x1, some 0x5]
  | .ldStVx _ => [some 0xF, none, some 0x1, some 0x8]
  | .addI _ => [some 0xF, none, some 0x1, some 0xE]
  | .ldF _ => [some 0xF, none, some 0x2, some 0x9]
  | .ldB _ => [some 0xF, none, some 0x3, some 0x3]
  | .stRegs _ => [some 0xF, none, some 0x5, some 0x5]
  | .ldRegs _ => [some 0xF, none, some 0x6, some 0x5]

/-- The digits of a word, most significant first. -/
def wordDigits (w : Word) : List Nat := [w.toNat / 4096, w.toNat / 256 % 16, w.toNat / 16 % 16, w.toNat % 16]

/-- Every fixed digit of a pattern equals the corresponding digit of a word (R95). -/
def fits : List (Option Nat) → List Nat → Prop
  | some d :: ds, e :: es => d = e ∧ fits ds es
  | none :: ds, _ :: es => fits ds es
  | _, _ => True

/-- The word of an instruction fits its pattern (R95). -/
def Statement (i : Instr) : Prop := fits (digits i) (wordDigits (encode i))

theorem cls : Statement .cls := by
  simp [Statement, digits, wordDigits, fits, encode]
theorem ret : Statement .ret := by
  simp [Statement, digits, wordDigits, fits, encode]
theorem jp (nnn : Addr12) : Statement (.jp nnn) := by
  have := nnn.isLt
  simp only [Statement, digits, wordDigits, fits, encode, formatA_toNat, BitVec.reduceToNat, and_true]
  omega
theorem call (nnn : Addr12) : Statement (.call nnn) := by
  have := nnn.isLt
  simp only [Statement, digits, wordDigits, fits, encode, formatA_toNat, BitVec.reduceToNat, and_true]
  omega
theorem seImm (x : RegIdx) (nn : Byte) : Statement (.seImm x nn) := by
  have := x.isLt
  have := nn.isLt
  simp only [Statement, digits, wordDigits, fits, encode, formatI_toNat, BitVec.reduceToNat, and_true]
  omega
theorem sneImm (x : RegIdx) (nn : Byte) : Statement (.sneImm x nn) := by
  have := x.isLt
  have := nn.isLt
  simp only [Statement, digits, wordDigits, fits, encode, formatI_toNat, BitVec.reduceToNat, and_true]
  omega
theorem seReg (x : RegIdx) (y : RegIdx) : Statement (.seReg x y) := by
  have := x.isLt
  have := y.isLt
  simp only [Statement, digits, wordDigits, fits, encode, formatR_toNat, BitVec.reduceToNat, and_true]
  omega
theorem ldImm (x : RegIdx) (nn : Byte) : Statement (.ldImm x nn) := by
  have := x.isLt
  have := nn.isLt
  simp only [Statement, digits, wordDigits, fits, encode, formatI_toNat, BitVec.reduceToNat, and_true]
  omega
theorem addImm (x : RegIdx) (nn : Byte) : Statement (.addImm x nn) := by
  have := x.isLt
  have := nn.isLt
  simp only [Statement, digits, wordDigits, fits, encode, formatI_toNat, BitVec.reduceToNat, and_true]
  omega
theorem ldReg (x : RegIdx) (y : RegIdx) : Statement (.ldReg x y) := by
  have := x.isLt
  have := y.isLt
  simp only [Statement, digits, wordDigits, fits, encode, formatR_toNat, BitVec.reduceToNat, and_true]
  omega
theorem orReg (x : RegIdx) (y : RegIdx) : Statement (.orReg x y) := by
  have := x.isLt
  have := y.isLt
  simp only [Statement, digits, wordDigits, fits, encode, formatR_toNat, BitVec.reduceToNat, and_true]
  omega
theorem andReg (x : RegIdx) (y : RegIdx) : Statement (.andReg x y) := by
  have := x.isLt
  have := y.isLt
  simp only [Statement, digits, wordDigits, fits, encode, formatR_toNat, BitVec.reduceToNat, and_true]
  omega
theorem xorReg (x : RegIdx) (y : RegIdx) : Statement (.xorReg x y) := by
  have := x.isLt
  have := y.isLt
  simp only [Statement, digits, wordDigits, fits, encode, formatR_toNat, BitVec.reduceToNat, and_true]
  omega
theorem addReg (x : RegIdx) (y : RegIdx) : Statement (.addReg x y) := by
  have := x.isLt
  have := y.isLt
  simp only [Statement, digits, wordDigits, fits, encode, formatR_toNat, BitVec.reduceToNat, and_true]
  omega
theorem sub (x : RegIdx) (y : RegIdx) : Statement (.sub x y) := by
  have := x.isLt
  have := y.isLt
  simp only [Statement, digits, wordDigits, fits, encode, formatR_toNat, BitVec.reduceToNat, and_true]
  omega
theorem shr (x : RegIdx) (y : RegIdx) : Statement (.shr x y) := by
  have := x.isLt
  have := y.isLt
  simp only [Statement, digits, wordDigits, fits, encode, formatR_toNat, BitVec.reduceToNat, and_true]
  omega
theorem subn (x : RegIdx) (y : RegIdx) : Statement (.subn x y) := by
  have := x.isLt
  have := y.isLt
  simp only [Statement, digits, wordDigits, fits, encode, formatR_toNat, BitVec.reduceToNat, and_true]
  omega
theorem shl (x : RegIdx) (y : RegIdx) : Statement (.shl x y) := by
  have := x.isLt
  have := y.isLt
  simp only [Statement, digits, wordDigits, fits, encode, formatR_toNat, BitVec.reduceToNat, and_true]
  omega
theorem sneReg (x : RegIdx) (y : RegIdx) : Statement (.sneReg x y) := by
  have := x.isLt
  have := y.isLt
  simp only [Statement, digits, wordDigits, fits, encode, formatR_toNat, BitVec.reduceToNat, and_true]
  omega
theorem ldI (nnn : Addr12) : Statement (.ldI nnn) := by
  have := nnn.isLt
  simp only [Statement, digits, wordDigits, fits, encode, formatA_toNat, BitVec.reduceToNat, and_true]
  omega
theorem jpV0 (nnn : Addr12) : Statement (.jpV0 nnn) := by
  have := nnn.isLt
  simp only [Statement, digits, wordDigits, fits, encode, formatA_toNat, BitVec.reduceToNat, and_true]
  omega
theorem rnd (x : RegIdx) (nn : Byte) : Statement (.rnd x nn) := by
  have := x.isLt
  have := nn.isLt
  simp only [Statement, digits, wordDigits, fits, encode, formatI_toNat, BitVec.reduceToNat, and_true]
  omega
theorem drw (x : RegIdx) (y : RegIdx) (n : Nibble) : Statement (.drw x y n) := by
  have := x.isLt
  have := y.isLt
  have := n.isLt
  simp only [Statement, digits, wordDigits, fits, encode, formatR_toNat, BitVec.reduceToNat, and_true]
  omega
theorem skp (x : RegIdx) : Statement (.skp x) := by
  have := x.isLt
  simp only [Statement, digits, wordDigits, fits, encode, formatI_toNat, BitVec.reduceToNat, and_true]
  omega
theorem sknp (x : RegIdx) : Statement (.sknp x) := by
  have := x.isLt
  simp only [Statement, digits, wordDigits, fits, encode, formatI_toNat, BitVec.reduceToNat, and_true]
  omega
theorem ldVxDt (x : RegIdx) : Statement (.ldVxDt x) := by
  have := x.isLt
  simp only [Statement, digits, wordDigits, fits, encode, formatI_toNat, BitVec.reduceToNat, and_true]
  omega
theorem ldVxK (x : RegIdx) : Statement (.ldVxK x) := by
  have := x.isLt
  simp only [Statement, digits, wordDigits, fits, encode, formatI_toNat, BitVec.reduceToNat, and_true]
  omega
theorem ldDtVx (x : RegIdx) : Statement (.ldDtVx x) := by
  have := x.isLt
  simp only [Statement, digits, wordDigits, fits, encode, formatI_toNat, BitVec.reduceToNat, and_true]
  omega
theorem ldStVx (x : RegIdx) : Statement (.ldStVx x) := by
  have := x.isLt
  simp only [Statement, digits, wordDigits, fits, encode, formatI_toNat, BitVec.reduceToNat, and_true]
  omega
theorem addI (x : RegIdx) : Statement (.addI x) := by
  have := x.isLt
  simp only [Statement, digits, wordDigits, fits, encode, formatI_toNat, BitVec.reduceToNat, and_true]
  omega
theorem ldF (x : RegIdx) : Statement (.ldF x) := by
  have := x.isLt
  simp only [Statement, digits, wordDigits, fits, encode, formatI_toNat, BitVec.reduceToNat, and_true]
  omega
theorem ldB (x : RegIdx) : Statement (.ldB x) := by
  have := x.isLt
  simp only [Statement, digits, wordDigits, fits, encode, formatI_toNat, BitVec.reduceToNat, and_true]
  omega
theorem stRegs (x : RegIdx) : Statement (.stRegs x) := by
  have := x.isLt
  simp only [Statement, digits, wordDigits, fits, encode, formatI_toNat, BitVec.reduceToNat, and_true]
  omega
theorem ldRegs (x : RegIdx) : Statement (.ldRegs x) := by
  have := x.isLt
  simp only [Statement, digits, wordDigits, fits, encode, formatI_toNat, BitVec.reduceToNat, and_true]
  omega

end Pattern

end Sys2Proof.Laws
end

