-- ==== Sys2Proof/Laws/Step.lean ====
section
/-!
SUPPORT. The step taken apart once: its three ways (R90), and that `step` is the spec's step at the default
policies, with a free byte as its draw.
-/
namespace Sys2Proof.Machine

/-- `step` in one equation (R90). -/
theorem step_eq (s : State) :
    step s =
      if 4094 < s.pc.toNat then .fault (.fetchAddress s.pc)
      else
        match decode (Memory.readWord s.mem s.pc.toNat) with
        | .ok i => exec i s.advance
        | .error _ => .next s.advance := by
  unfold step
  rw [fetch_eq]
  split_ifs <;> rfl

/-- The post-fetch `pc` does not wrap after a fetch (R27). -/
theorem advance_toNat {s : State} (h : s.pc.toNat ≤ 4094) : (s.pc + 2).toNat = s.pc.toNat + 2 := by
  simp only [BitVec.toNat_add, BitVec.reduceToNat]; omega

/-- Nor does it after a taken skip (R27, R134). -/
theorem skip_toNat {s : State} (h : s.pc.toNat ≤ 4094) : (s.pc + 2 + 2).toNat = s.pc.toNat + 4 := by
  simp only [BitVec.toNat_add, BitVec.reduceToNat]; omega

/-- A step that has a next state fetched inside memory, and either ran an instruction or skipped an unrecognized word. -/
theorem step_next {s t : State} (h : step s = .next t) :
    s.pc.toNat ≤ 4094 ∧
      ((∃ i, decode (Memory.readWord s.mem s.pc.toNat) = .ok i ∧ exec i s.advance = .next t) ∨
        (∃ e, decode (Memory.readWord s.mem s.pc.toNat) = .error e ∧ t = s.advance)) := by
  rw [step_eq] at h
  split_ifs at h with hpc
  refine ⟨by omega, ?_⟩
  cases hd : decode (Memory.readWord s.mem s.pc.toNat) with
  | ok i => rw [hd] at h; exact .inl ⟨i, rfl, h⟩
  | error e => rw [hd] at h; exact .inr ⟨e, rfl, by simpa using h.symm⟩

/-- Executing under the default policies is `exec`, but for the draw of Cxnn. -/
theorem execWith_default (r : Byte) (i : Instr) (s : State) (hi : ∀ x nn, i ≠ .rnd x nn) :
    execWith defaultPolicies r i s = exec i s := by
  cases i <;> first | rfl | exact absurd rfl (hi _ _)

end Sys2Proof.Machine
end

