-- ==== Sys2Proof/Tests/Slice0.lean ====
section
/-!
SUPPORT. The model's own tests. Expected values are those of spec/95_test_vectors.md (the vector is named at each test) or of
the tables of spec/, worked by hand; none is the model's own answer. At the end, for every obligation with hypotheses, a
witness that meets them, at the boundary of each clause.
-/
namespace Sys2Proof.Tests
open Sys2Proof.Machine

/-! ### Ill-formed operands are refused, one for each check (R94, R101) -/

theorem test_wf_register : (Operands.fmtX 16).wf = false := by decide
theorem test_wf_address : (Operands.fmtA 4096).wf = false := by decide
theorem test_wf_byte : (Operands.fmtI 0 256).wf = false := by decide
theorem test_wf_nibble : (Operands.fmtD 0 0 16).wf = false := by decide
theorem test_wf_accepts : (Operands.fmtD 15 15 15).wf = true := by decide

/-! ### Decoding: every constructor, by a word written out from R93 and R95 to R97 (V-DEC where it has one) -/

theorem test_decode_cls : decode 0b0000000011100000 = .ok .cls := by decide
theorem test_decode_ret : decode 0b0000000011101110 = .ok .ret := by decide
theorem test_decode_jp : decode 0b0001001000000100 = .ok (.jp 0x204) := by decide
theorem test_decode_call : decode 0b0010001000001100 = .ok (.call 0x20C) := by decide
theorem test_decode_seImm : decode 0b0011000110100101 = .ok (.seImm 1 0xA5) := by decide
theorem test_decode_sneImm : decode 0b0100001000001000 = .ok (.sneImm 2 0x08) := by decide
theorem test_decode_seReg : decode 0b0101000100100000 = .ok (.seReg 1 2) := by decide
theorem test_decode_ldImm : decode 0b0110000111111110 = .ok (.ldImm 1 0xFE) := by decide
theorem test_decode_addImm : decode 0b0111111100000001 = .ok (.addImm 15 0x01) := by decide
theorem test_decode_ldReg : decode 0b1000000100100000 = .ok (.ldReg 1 2) := by decide
theorem test_decode_orReg : decode 0b1000000100100001 = .ok (.orReg 1 2) := by decide
theorem test_decode_andReg : decode 0b1000000100100010 = .ok (.andReg 1 2) := by decide
theorem test_decode_xorReg : decode 0b1000000100100011 = .ok (.xorReg 1 2) := by decide
theorem test_decode_addReg : decode 0b1000000100100100 = .ok (.addReg 1 2) := by decide
theorem test_decode_sub : decode 0b1000000100100101 = .ok (.sub 1 2) := by decide
theorem test_decode_shr : decode 0b1000000100100110 = .ok (.shr 1 2) := by decide
theorem test_decode_subn : decode 0b1000000100100111 = .ok (.subn 1 2) := by decide
theorem test_decode_shl : decode 0b1000000100101110 = .ok (.shl 1 2) := by decide
theorem test_decode_sneReg : decode 0b1001101010110000 = .ok (.sneReg 10 11) := by decide
theorem test_decode_ldI : decode 0b1010001100000000 = .ok (.ldI 0x300) := by decide
theorem test_decode_jpV0 : decode 0b1011111111111111 = .ok (.jpV0 0xFFF) := by decide
theorem test_decode_rnd : decode 0b1100001100001111 = .ok (.rnd 3 0x0F) := by decide
theorem test_decode_drw : decode 0b1101101010111100 = .ok (.drw 10 11 12) := by decide
theorem test_decode_skp : decode 0b1110000110011110 = .ok (.skp 1) := by decide
theorem test_decode_sknp : decode 0b1110000110100001 = .ok (.sknp 1) := by decide
theorem test_decode_ldVxDt : decode 0b1111000100000111 = .ok (.ldVxDt 1) := by decide
theorem test_decode_ldVxK : decode 0b1111000100001010 = .ok (.ldVxK 1) := by decide
theorem test_decode_ldDtVx : decode 0b1111000100010101 = .ok (.ldDtVx 1) := by decide
theorem test_decode_ldStVx : decode 0b1111000100011000 = .ok (.ldStVx 1) := by decide
theorem test_decode_addI : decode 0b1111000100011110 = .ok (.addI 1) := by decide
theorem test_decode_ldF : decode 0b1111000100101001 = .ok (.ldF 1) := by decide
theorem test_decode_ldB : decode 0b1111000100110011 = .ok (.ldB 1) := by decide
theorem test_decode_stRegs : decode 0b1111000101010101 = .ok (.stRegs 1) := by decide
theorem test_decode_ldRegs : decode 0b1111000101100101 = .ok (.ldRegs 1) := by decide

/-- The unrecognized words of V-DEC, by group. -/
theorem test_decode_unrecognized :
    decode 0x0000 = .error (.group0 0x0000) ∧ decode 0x00E1 = .error (.group0 0x00E1) ∧
    decode 0x01E0 = .error (.group0 0x01E0) ∧ decode 0x0FEE = .error (.group0 0x0FEE) ∧
    decode 0x5121 = .error (.group5 0x5121) ∧ decode 0x8128 = .error (.group8 0x8128) ∧
    decode 0x812D = .error (.group8 0x812D) ∧ decode 0x812F = .error (.group8 0x812F) ∧
    decode 0x9ABF = .error (.group9 0x9ABF) ∧ decode 0xE19F = .error (.groupE 0xE19F) ∧
    decode 0xE000 = .error (.groupE 0xE000) ∧ decode 0xF175 = .error (.groupF 0xF175) ∧
    decode 0xF1FF = .error (.groupF 0xF1FF) ∧ decode 0xF100 = .error (.groupF 0xF100) := by decide

theorem test_decode_truncated : decodeBytes [0x61] = .error .truncated ∧ decodeBytes [] = .error .truncated := by decide

/-- The host's numbering of a row's bits: 0x6105 is LD V1, 5. -/
theorem test_decode_table_word : decodeTableWord 16 0x6105 = some (.ldImm 1 5) := by decide

/-! ### One step from a small state -/

/-- The next state of the step that runs a word, and the fault of one that has none. -/
def run (s : State) (w : Nat) : Option State :=
  match step (s.withFetchWord 16 w) with
  | .next t => some t
  | _ => none
def runFault (s : State) (w : Nat) : Option Fault :=
  match step (s.withFetchWord 16 w) with
  | .fault f => some f
  | _ => none
/-- The state after reset, with one or two registers written. -/
def r1 (x : RegIdx) (a : Byte) : State := State.reset.setReg x a
def r2 (x : RegIdx) (a : Byte) (y : RegIdx) (b : Byte) : State := (r1 x a).setReg y b
/-- A state at an address. -/
def at_ (a : Word) (s : State) : State := s.setPc a
/-- Bytes placed at an address. -/
def bytes (a : Nat) (bs : List Byte) (s : State) : State := s.setMem (storeSeq .fault a (fun k => bs.getD k 0) bs.length s.mem)
/-- The state after reset with a call stack of `k` entries, each 0x202. -/
def stacked (k : Fin 17) : State := { State.reset with sp := k, stack := Vector.replicate 16 0x202 }
/-- The cells that are set, by the index of R32. -/
def cells (s : State) : List Nat :=
  (List.range 32).flatMap fun r => (List.range 64).filterMap fun c =>
    if Display.cell s.display (Fin.ofNat 32 r) (Fin.ofNat 64 c) then some (r * 64 + c) else none

/-! V-CTL -/
theorem test_jp : (run (at_ 0x20A State.reset) 0x1204).map (·.pc) = some 0x204 := by decide
theorem test_jp_self : (run State.reset 0x1200).map (fun t => (t.pc, t.sp)) = some (0x200, 0) := by decide
theorem test_call : (run (at_ 0x204 State.reset) 0x220C).map (fun t => (t.stack[0], t.sp, t.pc)) = some (0x206, 1, 0x20C) := by
  decide
theorem test_call_full : (run (stacked 16) 0x2400).map (fun t => (t.sp, t.stack == (stacked 16).stack, t.pc)) =
    some (16, true, 0x400) ∧ stepReport ((stacked 16).withFetchWord 16 0x2400) = some .stackOverflow := by decide
theorem test_ret : (run (at_ 0x20E { stacked 1 with stack := Vector.replicate 16 0x206 }) 0x00EE).map
    (fun t => (t.sp, t.pc, t.stack[0])) = some (0, 0x206, 0x206) := by decide
theorem test_ret_empty : (run State.reset 0x00EE).map (fun t => (t.sp, t.pc)) = some (0, 0x202) ∧
    stepReport (State.reset.withFetchWord 16 0x00EE) = some .stackUnderflow := by decide
theorem test_jpV0 : (run (r1 0 0xFF) 0xBFFF).map (·.pc) = some 4350 := by decide
theorem test_jpV0_not_Vx : (run (r2 0 1 3 0x80) 0xB300).map (·.pc) = some 0x301 := by decide

/-! V-SKIP -/
theorem test_seImm_taken : (run (at_ 0x208 State.reset) 0x3100).map (·.pc) = some 0x20C := by decide
theorem test_seImm_not : (run (at_ 0x208 (r1 1 4)) 0x3100).map (·.pc) = some 0x20A := by decide
theorem test_sneImm_not : (run (at_ 0x300 (r1 2 7)) 0x4207).map (·.pc) = some 0x302 := by decide
theorem test_sneImm_taken : (run (at_ 0x300 (r1 2 7)) 0x4208).map (·.pc) = some 0x304 := by decide
theorem test_seReg_taken : (run (at_ 0x220 (r2 3 9 4 9)) 0x5340).map (·.pc) = some 0x224 := by decide
theorem test_seReg_not : (run (at_ 0x220 (r2 3 9 4 8)) 0x5340).map (·.pc) = some 0x222 := by decide
theorem test_sneReg_taken : (run (at_ 0x220 (r2 3 9 4 8)) 0x9340).map (·.pc) = some 0x224 := by decide
theorem test_sneReg_not : (run (at_ 0x220 (r2 3 9 4 9)) 0x9340).map (·.pc) = some 0x222 := by decide

/-! V-IMM -/
theorem test_ldImm : (run State.reset 0x6FAB).map (·.reg 15) = some 0xAB := by decide
theorem test_addImm_no_carry : (run (r2 1 0xFF 15 7) 0x7102).map (fun t => (t.reg 1, t.reg 15)) = some (1, 7) := by decide
theorem test_addImm_flag_register : (run (r1 15 0xFF) 0x7F01).map (·.reg 15) = some 0 := by decide
/-- In the host's interface the drawn byte is free, so only the fresh count can be tested; as an argument it is R142's 0xA7. -/
theorem test_rnd_fresh : (run (r1 3 9) 0xC300).map (·.draws) = some 1 := by decide
theorem test_rnd_draw :
    (match ((r1 3 9).withFetchWord 16 0xC30F).toCpuState.step defaultPolicies 0xA7 with
      | .next (c, _) => some c.v[3]
      | _ => none) = some 0x07 := by decide

/-! V-ALU -/
theorem test_ldReg : (run ((r2 1 1 2 0x3C).setReg 15 9) 0x8120).map (fun t => (t.reg 1, t.reg 15)) = some (0x3C, 9) := by decide
theorem test_orReg : (run ((r2 1 0xF0 2 0x3C).setReg 15 9) 0x8121).map (fun t => (t.reg 1, t.reg 15)) = some (0xFC, 9) := by
  decide
theorem test_andReg : (run ((r2 1 0xF0 2 0x3C).setReg 15 9) 0x8122).map (fun t => (t.reg 1, t.reg 15)) = some (0x30, 9) := by
  decide
theorem test_xorReg : (run ((r2 1 0xF0 2 0x3C).setReg 15 9) 0x8123).map (fun t => (t.reg 1, t.reg 15)) = some (0xCC, 9) := by
  decide
theorem test_addReg : (run (r2 1 200 2 100) 0x8124).map (fun t => (t.reg 1, t.reg 15)) = some (44, 1) := by decide
theorem test_addReg_y15 : (run (r2 1 250 15 10) 0x81F4).map (fun t => (t.reg 1, t.reg 15)) = some (4, 1) := by decide
theorem test_sub : (run (r2 1 3 2 10) 0x8125).map (fun t => (t.reg 1, t.reg 15)) = some (249, 0) := by decide
theorem test_sub_x15 : (run (r2 15 9 2 5) 0x8F25).map (·.reg 15) = some 1 := by decide
theorem test_shr : (run (r2 1 5 2 0xFF) 0x8126).map (fun t => (t.reg 1, t.reg 2, t.reg 15)) = some (2, 0xFF, 1) := by decide
theorem test_shr_x15 : (run (r1 15 3) 0x8F26).map (·.reg 15) = some 0 := by decide
theorem test_subn : (run (r2 1 10 2 3) 0x8127).map (fun t => (t.reg 1, t.reg 15)) = some (249, 0) := by decide
theorem test_subn_y15 : (run (r2 1 5 15 9) 0x81F7).map (fun t => (t.reg 1, t.reg 15)) = some (4, 1) := by decide
theorem test_shl : (run (r2 1 0x81 2 0) 0x812E).map (fun t => (t.reg 1, t.reg 15)) = some (0x02, 1) := by decide
theorem test_shl_x15 : (run (r1 15 0xFF) 0x8F2E).map (·.reg 15) = some 2 := by decide

/-! V-MEM -/
theorem test_ldI : (run State.reset 0xAFFF).map (·.i) = some 0x0FFF := by decide
theorem test_addI : (run ((r2 2 5 15 9).setI 0x0FFE) 0xF21E).map (fun t => (t.i, t.reg 15)) = some (0x1003, 9) := by decide
theorem test_addI_wraps : (run ((r1 2 1).setI 0xFFFF) 0xF21E).map (·.i) = some 0 := by decide
theorem test_ldF : (run (r1 0 0xA) 0xF029).map (·.i) = some 0x032 := by decide
theorem test_ldF_unmasked : (run (r1 0 0xFF) 0xF029).map (·.i) = some 0x4FB := by decide
theorem test_ldB : (run ((r1 0 123).setI 4093) 0xF033).map (fun t => [4093, 4094, 4095].map t.mem.read) = some [1, 2, 3] := by
  decide
theorem test_ldB_fault : runFault ((r1 0 123).setI 4094) 0xF033 = some (.dataAddress 4096) := by decide
theorem test_stRegs : (run (((r2 0 3 1 0).setReg 2 1).setI 0x300) 0xF255).map
    (fun t => ([0x300, 0x301, 0x302].map t.mem.read, t.i)) = some ([3, 0, 1], 0x303) := by decide
theorem test_stRegs_top : (run ((r1 0 123).setI 4095) 0xF055).map (fun t => (t.mem.read 4095, t.i)) = some (123, 0x1000) := by
  decide
theorem test_ldRegs : (run ((bytes 0x300 [2, 5, 4] State.reset).setI 0x300) 0xF265).map
    (fun t => (t.reg 0, t.reg 1, t.reg 2, t.i)) = some (2, 5, 4, 0x300) := by decide
theorem test_ldRegs_fault : runFault (State.reset.setI 0xFFFF) 0xF065 = some (.dataAddress 65535) := by decide

/-! V-DISP -/
theorem test_cls : (run (State.reset.setDisplay (Vector.replicate 32 (Vector.replicate 64 true))) 0x00E0).map (·.display) =
    some Display.clear := by decide
/-- The first draw of program P3: both coordinates wrap. -/
theorem test_drw_wraps : (run ((bytes 0x20E [0xF0, 0x81] (r2 0 62 1 31)).setI 0x20E) 0xD012).map (fun t => (cells t, t.reg 15)) =
    some ([5, 62, 1984, 1985, 2046, 2047], 0) := by decide
/-- V-DISP-2: the second draw meets a set cell. -/
theorem test_drw_collision :
    (run ((bytes 0x300 [0x60] (State.reset.setDisplay (Display.flip (Display.flip Display.clear 0 0) 0 1))).setI 0x300)
      0xD011).map (fun t => (cells t, t.reg 15)) = some ([0, 2], 1) := by decide

/-! V-KEY -/
theorem test_skp : (run (at_ 0x208 ((r1 0 15).setKey 15 true)) 0xE09E).map (·.pc) = some 0x20C := by decide
theorem test_skp_fault : runFault (r1 0 16) 0xE09E = some (.keyIndex 16) := by decide
theorem test_sknp : (run (at_ 0x208 (r1 0 3)) 0xE0A1).map (·.pc) = some 0x20C := by decide
theorem test_sknp_fault : runFault (r1 0 0x13) 0xE0A1 = some (.keyIndex 19) := by decide
theorem test_ldVxK_waits : (run (at_ 0x208 State.reset) 0xF00A).map (·.pc) = some 0x208 := by decide
theorem test_ldVxK_least : (run ((State.reset.setKey 3 true).setKey 7 true) 0xF00A).map (fun t => (t.reg 0, t.pc)) =
    some (3, 0x202) := by decide

/-! V-TMR -/
theorem test_ldVxDt : (run (State.reset.setDelayTimer 0x3B) 0xF107).map (·.reg 1) = some 0x3B := by decide
theorem test_ldDtVx : (run (r1 0 60) 0xF015).map (·.delayTimer) = some 60 := by decide
theorem test_ldStVx : (run (r1 0 3) 0xF018).map (fun t => (t.soundTimer, t.soundEnabled)) = some (3, true) := by decide
theorem test_tick : (fun t : State => (t.delayTimer, t.soundTimer)) ((State.reset.setSoundTimer 1).tick) = (0, 0) := by decide

/-! V-FAULT, and the order of bytes in a word (R62, odd pc of V-MEM) -/
theorem test_fetch_last : (run (at_ 4094 State.reset) 0x1200).map (·.pc) = some 0x200 := by decide
theorem test_fetch_fault : runFault (at_ 4095 State.reset) 0x0000 = some (.fetchAddress 4095) := by decide
theorem test_fetch_odd : fetch (at_ 0x203 (bytes 0x200 [0x12, 0x03, 0x00, 0x61, 0x2A, 0x00] State.reset)) = .ok 0x612A := by
  decide
/-- An empty program: the first word is 0x0000, an unrecognized word. -/
theorem test_unknown : stepReport State.reset = some .unknownOpcode ∧ (run State.reset 0x0000).map (·.pc) = some 0x202 := by
  decide
/-- R78: under `wrap` the fetch at 4095 takes its low byte from address 0 (the font's first byte, 0xF0). -/
theorem test_wrap_fetch : fetchWith .wrap (at_ 4095 (bytes 4095 [0x61] State.reset)) = .ok 0x61F0 := by decide

/-- R78, R98, R122, R212: a wrapped fetch carries its report; the low byte of both words is the font's 0xF0. -/
theorem test_wrap_reports_unknown :
    (match stepWith ⟨.wrap, .fault⟩ 0 (at_ 4095 State.reset) with | .next (t, r) => some (t.pc, r) | _ => none) =
      some (4097, some .unknownOpcode) := by decide
theorem test_wrap_reports_overflow :
    (match stepWith ⟨.wrap, .fault⟩ 0 (at_ 4095 (bytes 4095 [0x24] (stacked 16))) with
      | .next (t, r) => some (t.pc, t.sp, r)
      | _ => none) = some (0x4F0, 16, some .stackOverflow) := by decide

/-! The host: P4's beginning as a schedule of actions, a load that comes late, and a font of the host's own. -/
theorem test_session :
    (match Session.run defaultPolicies
        [.load (some [0xF0, 0x0A]), .step 0, .tick, .setKey 7 true, .setKey 3 true, .step 0] Session.start with
      | .next (q, rs) => some (q.state.v[0], q.state.pc, rs)
      | _ => none) = some (3, 0x202, []) := by decide
theorem test_late_load :
    (match Session.run defaultPolicies [.step 0, .load (some [0x12])] Session.start with
      | .refused e => some e
      | _ => none) = some .lateLoad := by decide
theorem test_other_font : (State.resetWithFont [0x11]).mem.read 0 = 0x11 ∧ (State.resetWithFont font).mem = [] := by decide

/-! ### Witnesses: for each obligation with hypotheses, values that meet them, at the boundary of each clause -/

/-- A full draw, a store and a load right below the end of memory. -/
def atTop : State := (r2 0 16 1 31).setI 4095
/-- The state after reset with keys 3 and 7 down. -/
def keysDown : State := (State.reset.setKey 3 true).setKey 7 true

theorem witness_DecodeOnlyEncodings : decode 0xFF65 = .ok (.ldRegs 15) := rfl
theorem witness_UnrecognizedWords : (at_ 4094 State.reset).pc.toNat ≤ 4094 ∧
    decode (Memory.readWord (at_ 4094 State.reset).mem 4094) = .error (.group0 0) := by decide
theorem witness_StepRunsDecoded_fault : 4094 < (at_ 4095 State.reset).pc.toNat := by decide
theorem witness_StepRunsDecoded_instr :
    (0x6AFF : Word).toNat = (Memory.read (bytes 4094 [0x6A, 0xFF] State.reset).mem 4094).toNat * 256 +
      (Memory.read (bytes 4094 [0x6A, 0xFF] State.reset).mem (4094 + 1)).toNat ∧ decode 0x6AFF = .ok (.ldImm 10 0xFF) := by
  decide
theorem witness_StepRunsDecoded_unknown :
    (0x0000 : Word).toNat = (Memory.read State.reset.mem 4094).toNat * 256 + (Memory.read State.reset.mem (4094 + 1)).toNat ∧
      decode 0x0000 = .error (.group0 0) := by decide
theorem witness_PlacedWordIsFetched : (at_ 4094 State.reset).pc.toNat ≤ 4094 := by decide
theorem witness_ExecFaultsExactly_next : raises (.stRegs 0) atTop = none ∧ raises (.skp 1) (r1 1 15) = none ∧
    raises (.drw 0 1 1) atTop = none ∧ raises (.drw 0 1 0) (State.reset.setI 65535) = none := by decide
theorem witness_ExecFaultsExactly_fault : raises (.stRegs 1) atTop = some (.dataAddress 4096) ∧
    raises (.skp 0) atTop = some (.keyIndex 16) ∧ raises (.drw 0 1 2) atTop = some (.dataAddress 4096) ∧
    raises (.ldB 0) (State.reset.setI 4094) = some (.dataAddress 4096) := by decide
theorem witness_StepFaultsExactly : step (at_ 4095 State.reset) = .fault (.fetchAddress 4095) ∧
    decode (Memory.readWord (atTop.withFetchWord 16 0xF155).mem 0x200) = .ok (.stRegs 1) := ⟨rfl, by decide⟩
theorem witness_StepReportsExactly_overflow : stepReport ((stacked 16).withFetchWord 16 0x2400) = some .stackOverflow ∧
    decode (Memory.readWord ((stacked 16).withFetchWord 16 0x2400).mem 0x200) = .ok (.call 0x400) := by decide
theorem witness_StepReportsExactly_underflow : stepReport (State.reset.withFetchWord 16 0x00EE) = some .stackUnderflow := by
  decide
theorem witness_StepReportsExactly_unknown : stepReport State.reset = some .unknownOpcode := by decide
theorem witness_PcAfterStep_instr : (∃ t, step (State.reset.withFetchWord 16 0x1FFF) = .next t) ∧
    decode (Memory.readWord (State.reset.withFetchWord 16 0x1FFF).mem 0x200) = .ok (.jp 0xFFF) := ⟨⟨_, rfl⟩, by decide⟩
theorem witness_PcAfterStep_unknown : (∃ t, step (at_ 4094 State.reset) = .next t) ∧
    decode (Memory.readWord (at_ 4094 State.reset).mem 4094) = .error (.group0 0) := ⟨⟨_, rfl⟩, by decide⟩
theorem witness_ExecFrame : ∃ t, exec (.stRegs 0) atTop = .next t := ⟨_, rfl⟩
theorem witness_FlagRegister : (∃ t, exec (.addReg 15 0) atTop = .next t) ∧ (∃ t, exec (.sub 15 15) atTop = .next t) ∧
    (∃ t, exec (.subn 0 15) atTop = .next t) ∧ (∃ t, exec (.drw 0 1 1) atTop = .next t) ∧
    (∃ t, exec (.stRegs 0) atTop = .next t) := ⟨⟨_, rfl⟩, ⟨_, rfl⟩, ⟨_, rfl⟩, ⟨_, rfl⟩, ⟨_, rfl⟩⟩
theorem witness_FlagRegister_other : (14 : RegIdx) ≠ 15 ∧ (∃ t, exec (.shr 14 15) atTop = .next t) ∧
    (∃ t, exec (.shl 14 15) atTop = .next t) ∧ (∃ t, exec (.ldVxK 14) keysDown = .next t) ∧
    (∃ t, exec (.ldRegs 14) State.reset = .next t) := ⟨by decide, ⟨_, rfl⟩, ⟨_, rfl⟩, ⟨_, rfl⟩, ⟨_, rfl⟩⟩
theorem reset_inv : State.reset.Inv := ⟨by decide, by decide, by decide⟩
theorem witness_StepKeepsInv : State.reset.Inv ∧ ∃ t, step State.reset = .next t := ⟨reset_inv, ⟨_, rfl⟩⟩
theorem witness_HostKeepsInv : State.reset.Inv ∧ ∃ t, State.reset.loadProgram [0x12, 0x00] = .ok t := ⟨reset_inv, ⟨_, rfl⟩⟩
theorem witness_SoundTimerUnread : (∃ t, step State.reset = .next t) ∧
    step (at_ 4095 State.reset) = .fault (.fetchAddress 4095) := ⟨⟨_, rfl⟩, rfl⟩
theorem witness_StaleStackUnread : (stacked 15).sp.val ≤ (15 : Fin 16).val ∧
    (∃ t, step ((stacked 15).withFetchWord 16 0x2400) = .next t) ∧ (∃ t, step ((stacked 15).withFetchWord 16 0x00EE) = .next t) ∧
    step (at_ 4095 (stacked 15)) = .fault (.fetchAddress 4095) := ⟨by decide, ⟨_, rfl⟩, ⟨_, rfl⟩, rfl⟩
theorem witness_DisplayUnread : (∃ t, step (State.reset.withFetchWord 16 0xD011) = .next t) ∧
    decode (Memory.readWord (State.reset.withFetchWord 16 0xD011).mem 0x200) = .ok (.drw 0 1 1) ∧
    step (atTop.withFetchWord 16 0xF155) = .fault (.dataAddress 4096) := ⟨⟨_, rfl⟩, by decide, rfl⟩
theorem witness_TickCommutes : (∃ t, step State.reset = .next t) ∧
    decode (Memory.readWord State.reset.mem State.reset.pc.toNat) = .error (.group0 0) := ⟨⟨_, rfl⟩, by decide⟩
theorem witness_PoliciesDecideOnlyFaults : (∃ t, step (atTop.withFetchWord 16 0xF055) = .next t) ∧
    (∃ t, step ((r1 1 15).withFetchWord 16 0xE19E) = .next t) ∧ (∃ t, step (State.reset.withFetchWord 16 0xC3FF) = .next t) ∧
    step (atTop.withFetchWord 16 0xF155) = .fault (.dataAddress 4096) := ⟨⟨_, rfl⟩, ⟨_, rfl⟩, ⟨_, rfl⟩, rfl⟩
theorem witness_DrawsAreNoState : (∃ t, step (State.reset.withFetchWord 16 0xC3FF) = .next t) ∧
    step (at_ 4095 State.reset) = .fault (.fetchAddress 4095) ∧
    (∀ w x nn, fetchWith .fault State.reset = .ok w → decode w ≠ .ok (.rnd x nn)) := by
  refine ⟨⟨_, rfl⟩, rfl, fun w x nn h => ?_⟩
  cases h; exact nofun
theorem witness_WrapHasNoAddressFault_fault : stepWith ⟨.wrap, .fault⟩ 0 ((r1 1 16).withFetchWord 16 0xE19E) =
    .fault (.keyIndex 16) := rfl
theorem witness_WrapHasNoAddressFault_fetch :
    decode (wordOfBytes (Memory.read (bytes 4095 [0x61] State.reset).mem (4095 % 4096))
      (Memory.read (bytes 4095 [0x61] State.reset).mem ((4095 + 1) % 4096))) = .ok (.ldImm 1 0xF0) := by decide
theorem witness_WrapHasNoAddressFault_runs :
    ∃ t, execWith ⟨.wrap, .fault⟩ 0 (.ldImm 1 0xF0) (at_ 4097 (bytes 4095 [0x61] State.reset)) = .next t := ⟨_, rfl⟩
theorem witness_WrapHasNoAddressFault_unknown :
    decode (wordOfBytes (Memory.read State.reset.mem (4095 % 4096)) (Memory.read State.reset.mem ((4095 + 1) % 4096))) =
      .error (.group0 0x00F0) := by decide
theorem witness_Return : State.reset.sp.val = 0 ∧ (stacked 1).sp.val = (0 : Fin 16).val + 1 ∧
    (stacked 16).sp.val = (15 : Fin 16).val + 1 ∧ (stacked 16).Inv :=
  ⟨by decide, by decide, by decide, ⟨by decide, by decide, by decide⟩⟩
theorem witness_Jump : (0xFFF : Addr12) = 0xFFF ∧ State.reset.pc.toNat ≤ 4094 ∧ State.reset.pc.toNat = (0x200 : Addr12).toNat ∧
    Memory.readWord (State.reset.withFetchWord 16 0x1200).mem 0x200 = (0x1#4 ++ (0x200 : Addr12) : BitVec 16) := by decide
theorem witness_Call : State.reset.sp.val = (0 : Fin 16).val ∧ (stacked 15).sp.val = (15 : Fin 16).val ∧
    (stacked 16).sp.val = 16 := by decide
theorem witness_CallThenReturn : (stacked 15).sp.val = (15 : Fin 16).val := by decide
theorem witness_SkipIfEqualLiteral : (at_ 4094 (r1 1 0x2A)).pc.toNat = 4094 ∧
    Memory.readWord ((at_ 4094 (r1 1 0x2A)).withFetchWord 16 0x312A).mem 4094 =
      (0x3#4 ++ (BitVec.ofFin 1 : BitVec 4) ++ (r1 1 0x2A).reg 1 : BitVec 16) := by decide
theorem witness_AddWithCarry_Subtract : (14 : RegIdx) ≠ 15 := by decide
theorem witness_ReverseSubtract : ∃ s1, s1 = atTop.setReg 15 (atTop.reg 0 - atTop.reg 15) := ⟨_, rfl⟩
theorem witness_ShiftRight_ShiftLeft : (14 : RegIdx) ≠ 15 ∧ (15 : RegIdx) = 15 := by decide
theorem witness_StoreDecimal : (State.reset.setI 4093).i.toNat ≤ 4093 ∧ 4093 < (State.reset.setI 4094).i.toNat := by decide
theorem witness_StoreRegisters_LoadRegisters : (State.reset.setI 4080).i.toNat + (15 : RegIdx).val ≤ 4095 ∧
    4095 < (State.reset.setI 4081).i.toNat + (15 : RegIdx).val ∧ 4095 < (State.reset.setI 65535).i.toNat + (0 : RegIdx).val := by
  decide
theorem witness_StoreThenLoad : ∃ t, exec (.stRegs 0) atTop = .next t ∧ (t.setI atTop.i).mem = t.mem ∧
    (t.setI atTop.i).i = atTop.i := ⟨_, rfl, rfl, rfl⟩
theorem witness_StoreIsFetched : (∃ t, exec (.stRegs 1) (State.reset.setI 0x200) = .next t) ∧
    (1 : RegIdx).val = (0 : RegIdx).val + 1 ∧ (1 : RegIdx).val ≤ (1 : RegIdx).val ∧
    (State.reset.setI 0x200).pc.toNat = (State.reset.setI 0x200).i.toNat + (0 : RegIdx).val :=
  ⟨⟨_, rfl⟩, by decide, by decide, by decide⟩
theorem witness_DrawSprite : ((0 : Nibble).toNat = 0 ∨ (State.reset.setI 65535).i.toNat + (0 : Nibble).toNat ≤ 4096) ∧
    ((1 : Nibble).toNat = 0 ∨ atTop.i.toNat + (1 : Nibble).toNat ≤ 4096) ∧
    0 < (2 : Nibble).toNat ∧ 4096 < atTop.i.toNat + (2 : Nibble).toNat := by decide
theorem witness_DrawTwiceRestores : (0 : RegIdx) ≠ 15 ∧ (14 : RegIdx) ≠ 15 ∧ ∃ t, exec (.drw 0 14 1) atTop = .next t :=
  ⟨by decide, by decide, _, rfl⟩
theorem witness_KeySkips : ((r1 1 15).reg 1).toNat = (15 : Fin 16).val ∧ 15 < ((r1 1 16).reg 1).toNat := by decide
theorem witness_KeyPolicies : 15 < ((r1 1 0x13).reg 1).toNat ∧ ((r1 1 0x13).reg 1).toNat % 16 = (3 : Fin 16).val := by decide
theorem witness_WaitForKey_down : keysDown.isPressed 3 = true ∧ ∀ j : Fin 16, j.val < (3 : Fin 16).val → keysDown.isPressed j = false := by
  decide
theorem witness_WaitForKey_waits : (at_ 4094 State.reset).pc.toNat ≤ 4094 ∧
    (∀ k, ((at_ 4094 State.reset).withFetchWord 16 0xF30A).isPressed k = false) ∧
    decode (Memory.readWord ((at_ 4094 State.reset).withFetchWord 16 0xF30A).mem 4094) = .ok (.ldVxK 3) := by decide
theorem witness_LoadProgram : (List.replicate 3584 (0xFF : Byte)).length ≤ 3584 ∧
    3584 < (List.replicate 3585 (0xFF : Byte)).length ∧ (⟨false, State.reset.toCpuState⟩ : Session).mayLoad = false :=
  ⟨Nat.le_of_eq List.length_replicate, Nat.lt_of_lt_of_eq (Nat.lt_succ_self 3584) List.length_replicate.symm, rfl⟩
theorem witness_SessionActs : (∃ t r, Session.start.state.step defaultPolicies 0 = .next (t, r)) ∧
    (at_ 4095 State.reset).toCpuState.step defaultPolicies 0 = .fault (.fetchAddress 4095) ∧
    Session.start.mayLoad = true ∧ ∃ t, Session.start.state.toState.loadProgram [0x12, 0x00] = .ok t :=
  ⟨⟨_, _, rfl⟩, rfl, rfl, ⟨_, rfl⟩⟩

end Sys2Proof.Tests
end

section
/-!
SUPPORT. The frame of `exec`, assembled from the frames of the updates (Laws/Frame.lean): first what two updates in a row
change, then the meanings that branch, then the dispatch (spec/10_state.md R23, R35).
-/
namespace Sys2Proof.Machine

theorem SameBut.symm {w : Piece → Prop} {s t : State} (h : SameBut w s t) : SameBut w t s :=
  fun p hp => (h p hp).symm

theorem SameBut.trans_or {w w' : Piece → Prop} {s t u : State} (h : SameBut w s t) (h' : SameBut w' t u) :
    SameBut (fun p => w p ∨ w' p) s u :=
  (h.mono fun _ => .inl).trans (h'.mono fun _ => .inr)

theorem setReg_setReg_frame (s : State) (x y : RegIdx) (a b : Byte) :
    SameBut (fun p => p = .reg x ∨ p = .reg y) s ((s.setReg x a).setReg y b) :=
  (setReg_frame s x a).trans_or (setReg_frame _ y b)

theorem execCall_frame {nnn : Addr12} {s t : State} (h : execCall nnn s = .next t) :
    SameBut (mayWrite (.call nnn) s) s t := by
  cases h
  refine ((pushReturn_frame s s.pc).trans_or (setPc_frame _ (addrOperand nnn))).mono fun p => ?_
  rintro ((hsp | hentry) | hpc)
  · exact .inr (.inl hsp)
  · exact .inr (.inr hentry)
  · exact .inl hpc

theorem execDrw_frame {x y : RegIdx} {n : Nibble} {s t : State} (h : execDrw x y n s = .next t) :
    SameBut (mayWrite (.drw x y n) s) s t := by
  rw [execDrw_eq] at h
  split_ifs at h
  cases h
  exact ((setDisplay_frame s _).trans_or (setReg_frame _ 15 _)).mono fun _ => Or.symm

theorem execSkp_frame {x : RegIdx} {s t : State} (h : execSkp x s = .next t) : SameBut (mayWrite (.skp x) s) s t := by
  rw [execSkp_eq] at h
  split_ifs at h <;> cases h <;> exact setPc_frame s _

theorem execSknp_frame {x : RegIdx} {s t : State} (h : execSknp x s = .next t) : SameBut (mayWrite (.sknp x) s) s t := by
  rw [execSknp_eq] at h
  split_ifs at h <;> cases h <;> exact setPc_frame s _

theorem execLdVxK_frame {x : RegIdx} {s t : State} (h : execLdVxK x s = .next t) :
    SameBut (mayWrite (.ldVxK x) s) s t := by
  unfold execLdVxK at h
  cases hk : lowestKey s with
  | none => rw [hk] at h; cases h; exact (setPc_frame s _).mono fun _ => .inr
  | some k => rw [hk] at h; cases h; exact (setReg_frame s x _).mono fun _ => .inl

theorem execLdB_frame {x : RegIdx} {s t : State} (h : execLdB x s = .next t) : SameBut (mayWrite (.ldB x) s) s t := by
  rw [execLdB_eq] at h
  split_ifs at h
  cases h
  refine (storeSeq_frame s _ _ 3).mono ?_
  rintro p ⟨a, rfl, hlo, hhi⟩
  exact ⟨a, rfl, hlo, by omega⟩

theorem execStRegs_frame {x : RegIdx} {s t : State} (h : execStRegs x s = .next t) :
    SameBut (mayWrite (.stRegs x) s) s t := by
  rw [execStRegs_eq] at h
  split_ifs at h
  cases h
  refine ((storeSeq_frame s _ _ _).trans_or (setI_frame _ _)).mono ?_
  rintro p (⟨a, rfl, hlo, hhi⟩ | hi)
  · exact .inr ⟨a, rfl, hlo, by omega⟩
  · exact .inl hi

theorem execLdRegs_frame {x : RegIdx} {s t : State} (h : execLdRegs x s = .next t) :
    SameBut (mayWrite (.ldRegs x) s) s t := by
  rw [execLdRegs_eq] at h
  split_ifs at h
  cases h
  refine (loadSeq_frame s _ _).mono ?_
  rintro p ⟨y, rfl, hy⟩
  exact ⟨y, rfl, by omega⟩

theorem exec_frame {i : Instr} {s t : State} (h : exec i s = .next t) : SameBut (mayWrite i s) s t := by
  cases i with
  | cls => cases h; exact setDisplay_frame s _
  | ret => cases h; exact popReturn_frame s
  | jp | jpV0 => cases h; exact setPc_frame s _
  | call => exact execCall_frame h
  | seImm x nn => rw [exec, execSeImm_eq] at h; cases h; exact setPc_frame s _
  | sneImm x nn => rw [exec, execSneImm_eq] at h; cases h; exact setPc_frame s _
  | seReg x y => rw [exec, execSeReg_eq] at h; cases h; exact setPc_frame s _
  | sneReg x y => rw [exec, execSneReg_eq] at h; cases h; exact setPc_frame s _
  | ldImm | addImm | ldReg | orReg | andReg | xorReg | ldVxDt => cases h; exact setReg_frame s _ _
  | addReg | sub | subn => cases h; exact setReg_setReg_frame s _ 15 _ _
  | shr | shl => cases h; exact (setReg_setReg_frame s 15 _ _ _).mono fun _ => Or.symm
  | ldI | addI | ldF => cases h; exact setI_frame s _
  | rnd x => cases h; exact ((draw8_frame s).trans_or (setReg_frame _ x _)).mono fun _ => Or.symm
  | drw => exact execDrw_frame h
  | skp => exact execSkp_frame h
  | sknp => exact execSknp_frame h
  | ldVxK => exact execLdVxK_frame h
  | ldDtVx => cases h; exact setDelayTimer_frame s _
  | ldStVx => cases h; exact setSoundTimer_frame s _
  | ldB => exact execLdB_frame h
  | stRegs => exact execStRegs_frame h
  | ldRegs => exact execLdRegs_frame h

end Sys2Proof.Machine

namespace Sys2Proof.Proofs

/-- Settles O12: the frame of every instruction, from the frame of each update (R23, R35). -/
theorem execFrame : Obligations.ExecFrame := by
  unfold Obligations.ExecFrame
  intro i s t h
  exact Machine.exec_frame h

end Sys2Proof.Proofs
end

section
/-!
SUPPORT. Noninterference: two runs of one step side by side. `Change` changes the call stack, the sound timer, the framebuffer
or the supply of draws; `Change.Unseen` says when an instruction neither reads nor replaces what is changed; then the
instruction and the change commute (`exec_change`). `Lockstep` relates two outcomes, and `step_lockstep` reduces a step to
the instruction it executes.
-/
namespace Sys2Proof.Machine

/-- A change of the four fields that few instructions read or write; the other fields stay. -/
structure Change where
  stack : Vector Word 16 → Vector Word 16 := id
  soundTimer : Byte → Byte := id
  display : Display → Display := id
  draws : Nat → Nat := id

/-- The changed state. -/
def Change.on (c : Change) (s : State) : State :=
  { s with stack := c.stack s.stack, soundTimer := c.soundTimer s.soundTimer, display := c.display s.display,
           draws := c.draws s.draws }

/-- The second state is the first, changed. -/
abbrev Change.Links (c : Change) (t t' : State) : Prop := t' = c.on t

/-- The instruction, executed on `s`, neither reads nor replaces what `c` changes. -/
def Change.Unseen (c : Change) (i : Instr) (s : State) : Prop :=
  match i with
  | .cls | .drw _ _ _ => c.display = id
  | .ldStVx _ => c.soundTimer = id
  | .rnd _ _ => c.draws = id
  | .ret => ∀ _ : 0 < s.sp.val, (c.stack s.stack)[s.sp.val - 1] = s.stack[s.sp.val - 1]
  | .call _ => ∀ _ : s.sp.val < 16, (c.stack s.stack).set s.sp.val s.pc = c.stack (s.stack.set s.sp.val s.pc)
  | _ => True

/-- Two outcomes of one kind: next states related by `R`, or the same fault, or the same refusal. -/
def Lockstep (R : State → State → Prop) : Host.Outcome State Fault Refusal → Host.Outcome State Fault Refusal → Prop
  | .next t, .next t' => R t t'
  | .fault f, .fault f' => f = f'
  | .refused r, .refused r' => r = r'
  | _, _ => False

theorem Lockstep.next {R : State → State → Prop} {o o' : Host.Outcome State Fault Refusal} (h : Lockstep R o o') {t : State}
    (ho : o = .next t) : ∃ t', o' = .next t' ∧ R t t' := by
  subst ho
  cases o' with
  | next t' => exact ⟨t', rfl, h⟩
  | fault | refused => exact h.elim

theorem Lockstep.fault {R : State → State → Prop} {o o' : Host.Outcome State Fault Refusal} (h : Lockstep R o o') {f : Fault}
    (ho : o = .fault f) : o' = .fault f := by
  subst ho
  cases o' with
  | fault f' => exact congrArg _ (Eq.symm h)
  | next | refused => exact h.elim

theorem Lockstep.mono {R R' : State → State → Prop} {o o' : Host.Outcome State Fault Refusal} (h : Lockstep R o o')
    (hR : ∀ t t', o = .next t → o' = .next t' → R t t' → R' t t') : Lockstep R' o o' := by
  cases o with
  | next t =>
    cases o' with
    | next t' => exact hR t t' rfl rfl h
    | fault | refused => exact h.elim
  | fault | refused => cases o' <;> exact h

section
variable (c : Change) (s : State)

@[simp] theorem Change.on_mem : (c.on s).mem = s.mem := rfl
@[simp] theorem Change.on_pc : (c.on s).pc = s.pc := rfl
@[simp] theorem Change.on_i : (c.on s).i = s.i := rfl
@[simp] theorem Change.on_sp : (c.on s).sp = s.sp := rfl
@[simp] theorem Change.on_reg (x : RegIdx) : (c.on s).reg x = s.reg x := rfl
@[simp] theorem Change.on_isPressed (k : Fin 16) : (c.on s).isPressed k = s.isPressed k := rfl

theorem Change.on_skipIf (b : Bool) : (c.on s).skipIf b = c.on (s.skipIf b) := by
  cases b <;> rfl

theorem Change.on_loadSeq (f : Nat → Byte) (n : Nat) :
    State.loadSeq f n (c.on s) = c.on (State.loadSeq f n s) := by
  induction n with
  | zero => rfl
  | succ n ih =>
    rw [State.loadSeq, State.loadSeq, ih]
    unfold State.setRegAt
    split <;> rfl

end

theorem skipOnKey_change (c : Change) (p : KeyIndexPolicy) (level : Bool) (x : RegIdx) (s : State) :
    Lockstep c.Links (skipOnKey p level x s) (skipOnKey p level x (c.on s)) := by
  have hkey : keyOperand p (c.on s) (s.reg x) = keyOperand p s (s.reg x) := rfl
  unfold skipOnKey
  rw [Change.on_reg, hkey]
  cases keyOperand p s (s.reg x) with
  | error f => rfl
  | ok down => exact Change.on_skipIf c s _

theorem execLdVxK_change (c : Change) (x : RegIdx) (s : State) :
    Lockstep c.Links (execLdVxK x s) (execLdVxK x (c.on s)) := by
  have hkey : lowestKey (c.on s) = lowestKey s := rfl
  unfold execLdVxK
  rw [hkey]
  cases lowestKey s <;> rfl

theorem execRet_change {c : Change} {s : State} (h : c.Unseen .ret s) :
    Lockstep c.Links (execRet s) (execRet (c.on s)) := by
  unfold execRet retEffect popReturn
  by_cases hsp : 0 < s.sp.val
  · have hpop : (c.on s).stack[s.sp.val - 1] = s.stack[s.sp.val - 1] := h hsp
    rw [dif_pos hsp, dif_pos (show 0 < (c.on s).sp.val from hsp)]
    exact State.ext_fields rfl hpop rfl rfl rfl rfl rfl rfl rfl rfl rfl
  · rw [dif_neg hsp, dif_neg (show ¬ 0 < (c.on s).sp.val from hsp)]
    rfl

theorem execCall_change {c : Change} {nnn : Addr12} {s : State} (h : c.Unseen (.call nnn) s) :
    Lockstep c.Links (execCall nnn s) (execCall nnn (c.on s)) := by
  unfold execCall callEffect pushReturn
  by_cases hsp : s.sp.val < 16
  · have hpush : (c.on s).stack.set s.sp.val s.pc = c.stack (s.stack.set s.sp.val s.pc) := h hsp
    rw [dif_pos hsp, dif_pos (show (c.on s).sp.val < 16 from hsp)]
    exact State.ext_fields rfl rfl rfl rfl hpush rfl rfl rfl rfl rfl rfl
  · rw [dif_neg hsp, dif_neg (show ¬ (c.on s).sp.val < 16 from hsp)]
    rfl

theorem execDrw_change {c : Change} {x y : RegIdx} {n : Nibble} {s : State} (h : c.Unseen (.drw x y n) s) :
    Lockstep c.Links (execDrw x y n s) (execDrw x y n (c.on s)) := by
  obtain ⟨stack, soundTimer, display, draws⟩ := c
  cases h
  rw [execDrw_eq, execDrw_eq, Change.on_i]
  split_ifs <;> rfl

/-- An instruction commutes with a change it does not see. -/
theorem exec_change {c : Change} {i : Instr} {s : State} (h : c.Unseen i s) :
    Lockstep c.Links (exec i s) (exec i (c.on s)) := by
  cases i with
  | ret => exact execRet_change h
  | call => exact execCall_change h
  | drw => exact execDrw_change h
  | cls | rnd | ldStVx => obtain ⟨⟩ := c; cases h; rfl
  | skp x => exact skipOnKey_change c _ true x s
  | sknp x => exact skipOnKey_change c _ false x s
  | ldVxK x => exact execLdVxK_change c x s
  | seImm | sneImm | seReg | sneReg => exact Change.on_skipIf c s _
  | ldB x =>
    rw [exec, exec, execLdB_eq, execLdB_eq, Change.on_i]
    split_ifs <;> rfl
  | stRegs x =>
    rw [exec, exec, execStRegs_eq, execStRegs_eq, Change.on_i]
    split_ifs <;> rfl
  | ldRegs x =>
    rw [exec, exec, execLdRegs_eq, execLdRegs_eq, Change.on_i, Change.on_mem, Change.on_loadSeq]
    split_ifs <;> rfl
  | _ => rfl

/-- The fetch sees no change, so two steps are in lockstep when the instruction they fetch is. -/
theorem step_lockstep {R : State → State → Prop} {c : Change} {s : State} (hskip : R s.advance (c.on s.advance))
    (hexec : ∀ i, decode (Memory.readWord s.mem s.pc.toNat) = .ok i →
      Lockstep R (exec i s.advance) (exec i (c.on s.advance))) :
    Lockstep R (step s) (step (c.on s)) := by
  rw [step_eq, step_eq, Change.on_pc, Change.on_mem]
  split_ifs
  · rfl
  · cases hd : decode (Memory.readWord s.mem s.pc.toNat) with
    | ok i => exact hexec i hd
    | error e => exact hskip

/-! ### The report, the stack pointer and the draw of a step -/

theorem report_ret_eq (s : State) : report .ret s = if 0 < s.sp.val then none else some .stackUnderflow := by
  rcases execRet_cases s with ⟨hsp, hr, -⟩ | ⟨hsp, hr, -⟩
  · rw [hr, if_pos hsp]
  · rw [hr, if_neg (by omega)]

theorem report_call_eq (nnn : Addr12) (s : State) :
    report (.call nnn) s = if s.sp.val < 16 then none else some .stackOverflow := by
  rcases execCall_cases nnn s with ⟨hsp, hr, -⟩ | ⟨hsp, hr, -⟩
  · rw [hr, if_pos hsp]
  · rw [hr, if_neg (by omega)]

theorem report_congr_sp (i : Instr) {s s' : State} (h : s'.sp = s.sp) : report i s' = report i s := by
  cases i with
  | ret => rw [report_ret_eq, report_ret_eq, h]
  | call => rw [report_call_eq, report_call_eq, h]
  | _ => rfl

theorem Change.stepReport_on (c : Change) (s : State) : stepReport (c.on s) = stepReport s := by
  have hfetch : fetch (c.on s) = fetch s := rfl
  unfold stepReport
  rw [hfetch]
  cases fetch s with
  | error => rfl
  | ok w =>
    dsimp only
    cases decode w with
    | ok i => exact report_congr_sp i rfl
    | error => rfl

/-- Two runs of an instruction that sees a change end alike where neither run writes and the starts were alike. -/
theorem exec_lockstep_of_frame {w : Piece → Prop} {i : Instr} {s s' : State} (hs : SameBut w s s')
    (hw : ∀ p, mayWrite i s p → w p) (hw' : ∀ p, mayWrite i s' p → w p)
    (ho : Lockstep (fun _ _ => True) (exec i s) (exec i s')) : Lockstep (SameBut w) (exec i s) (exec i s') :=
  ho.mono fun _ _ h h' _ => (((exec_frame h).mono hw).symm.trans hs).trans ((exec_frame h').mono hw')

theorem exec_sp_le {i : Instr} {s t : State} (hi : ∀ nnn, i ≠ .call nnn) (h : exec i s = .next t) :
    t.sp.val ≤ s.sp.val := by
  cases i with
  | call nnn => exact absurd rfl (hi nnn)
  | ret =>
    rcases execRet_cases s with ⟨_, -, he⟩ | ⟨-, -, he⟩ <;> cases he.symm.trans h
    · exact Nat.sub_le ..
    · exact le_rfl
  | _ => exact (exec_frame h .sp (by simp [mayWrite])).le

theorem setDraws_frame (s : State) (n : Nat) : SameBut (fun p => p = .draws) s (s.setDraws n) := by
  intro p hp
  cases p with
  | draws => exact absurd rfl hp
  | _ => rfl

theorem execWith_draw_unused (p : Policies) (a b : Byte) {i : Instr} (hi : ∀ x nn, i ≠ .rnd x nn) (s : State) :
    execWith p a i s = execWith p b i s := by
  cases i with
  | rnd x nn => exact absurd rfl (hi x nn)
  | _ => rfl

theorem fetchWith_setDraws (o : OorPolicy) (s : State) (n : Nat) : fetchWith o (s.setDraws n) = fetchWith o s := by
  cases o <;> rfl

theorem stepWith_draw_unused (p : Policies) (a b : Byte) {s : State}
    (h : ∀ w x nn, fetchWith p.oor s = .ok w → decode w ≠ .ok (.rnd x nn)) : stepWith p a s = stepWith p b s := by
  unfold stepWith
  cases hw : fetchWith p.oor s with
  | error => rfl
  | ok w =>
    dsimp only
    cases hi : decode w with
    | error => rfl
    | ok i =>
      dsimp only
      rw [execWith_draw_unused p a b fun x nn heq => h w x nn hw (heq ▸ hi)]

/-! ### The four changes, and what each one can reach -/

/-- Another value in the sound timer. -/
def otherSoundTimer (b : Byte) : Change := { soundTimer := fun _ => b }
/-- Another value in one entry of the call stack. -/
def otherEntry (k : Fin 16) (a : Word) : Change := { stack := fun v => v.set k.val a }
/-- Another framebuffer. -/
def otherDisplay (d : Display) : Change := { display := fun _ => d }
/-- Another supply of draws. -/
def otherDraws (n : Nat) : Change := { draws := fun _ => n }

/-- The two states agree but for stack entries that the first does not use (R29). -/
def AgreeInUse (t t' : State) : Prop :=
  { t' with stack := t.stack } = t ∧ ∀ j : Fin 16, j.val < t.sp.val → t'.stack[j.val] = t.stack[j.val]

theorem otherEntry_stack (k : Fin 16) (a : Word) (s : State) {j : Nat} (hj : j < k.val) :
    ((otherEntry k a).on s).stack[j]'(by omega) = s.stack[j]'(by omega) :=
  Vector.getElem_set_ne k.isLt (by omega) (by omega)

theorem otherEntry_agreeInUse {k : Fin 16} {s : State} (hk : s.sp.val ≤ k.val) (a : Word) :
    AgreeInUse s ((otherEntry k a).on s) :=
  ⟨rfl, fun _ hj => otherEntry_stack k a s (hj.trans_le hk)⟩

/-- Up to and with the entry `m` just written, an earlier write at or above `m` makes no difference. -/
theorem getElem_set_set_of_le (v : Vector Word 16) {m k j : Nat} (hm : m < 16) (hk : k < 16) (hmk : m ≤ k) (hj : j < m + 1)
    (a b : Word) : ((v.set k a).set m b)[j] = (v.set m b)[j] := by
  by_cases hmj : m = j
  · simp only [Vector.getElem_set, if_pos hmj]
  · simp only [Vector.getElem_set, if_neg hmj, if_neg (show ¬ k = j by omega)]

/-- A 2nnn uses one entry more, and writes it. -/
theorem execCall_agreeInUse {k : Fin 16} {s : State} (hk : s.sp.val ≤ k.val) (a : Word) (nnn : Addr12) :
    Lockstep AgreeInUse (execCall nnn s) (execCall nnn ((otherEntry k a).on s)) := by
  obtain ⟨hsp, -, he⟩ := (execCall_cases nnn s).resolve_right (by omega)
  obtain ⟨_, -, he'⟩ := (execCall_cases nnn ((otherEntry k a).on s)).resolve_right (by rw [Change.on_sp]; omega)
  rw [he, he']
  exact ⟨rfl, fun j hj => getElem_set_set_of_le s.stack hsp k.isLt hk hj a s.pc⟩

theorem exec_agreeInUse {k : Fin 16} {s : State} (hk : s.sp.val ≤ k.val) (a : Word) (i : Instr) :
    Lockstep AgreeInUse (exec i s) (exec i ((otherEntry k a).on s)) := by
  have unseen (hi : ∀ nnn, i ≠ .call nnn) (h : (otherEntry k a).Unseen i s) :
      Lockstep AgreeInUse (exec i s) (exec i ((otherEntry k a).on s)) :=
    (exec_change h).mono fun t t' ht _ heq => heq ▸ otherEntry_agreeInUse ((exec_sp_le hi ht).trans hk) a
  cases i with
  | call nnn => exact execCall_agreeInUse hk a nnn
  | ret => exact unseen nofun fun hsp => otherEntry_stack k a s (by omega)
  | _ => exact unseen nofun (by simp [Change.Unseen, otherEntry])

/-- What the framebuffer before the step decides of the state after it: the cells, and the flag of a Dxyn (R32). -/
def onDisplay (s : State) (p : Piece) : Prop :=
  (∃ r c, p = .cell r c) ∨ (p = .reg 15 ∧ ∃ x y n, decode (Memory.readWord s.mem s.pc.toNat) = .ok (.drw x y n))

theorem execDrw_lockstep (d : Display) (x y : RegIdx) (n : Nibble) (s : State) :
    Lockstep (fun _ _ => True) (execDrw x y n s) (execDrw x y n ((otherDisplay d).on s)) := by
  rw [execDrw_eq, execDrw_eq, Change.on_i]
  split_ifs <;> trivial

/-- What the supply of draws decides of the state after a step from `s`: itself, and what a Cxnn draws (log 6). -/
def onDraws (s : State) (p : Piece) : Prop :=
  p = .draws ∨ ∃ x nn, p = .reg x ∧ decode (Memory.readWord s.mem s.pc.toNat) = .ok (.rnd x nn)

end Sys2Proof.Machine

namespace Sys2Proof.Proofs
open Sys2Proof.Machine

/-- Settles O17: only Fx18 touches the sound timer, and it replaces it (R30). -/
theorem soundTimerUnread : Obligations.SoundTimerUnread := by
  unfold Obligations.SoundTimerUnread
  intro s b
  have hstep : Lockstep (fun t t' => t'.setSoundTimer 0 = t.setSoundTimer 0) (step s)
      (step (s.setSoundTimer b)) := by
    refine step_lockstep (c := otherSoundTimer b) rfl fun i _ => ?_
    cases i with
    | ldStVx => rfl
    | _ =>
      refine (exec_change ?_).mono fun t t' _ _ ht => ht ▸ rfl
      simp [Change.Unseen, otherSoundTimer]
  exact ⟨fun t => hstep.next, fun f => hstep.fault, (otherSoundTimer b).stepReport_on s⟩

/-- Settles O18: 00EE reads below `sp` only, and 2nnn overwrites the entry at `sp` (R29). -/
theorem staleStackUnread : Obligations.StaleStackUnread := by
  unfold Obligations.StaleStackUnread
  intro s k a hk
  have hstep : Lockstep AgreeInUse (step s) (step { s with stack := s.stack.set k.val a }) :=
    step_lockstep (c := otherEntry k a) (otherEntry_agreeInUse (s := s.advance) hk a) fun i _ => exec_agreeInUse (s := s.advance) hk a i
  exact ⟨fun t => hstep.next, fun f => hstep.fault⟩

/-- Settles O19: 00E0 replaces the framebuffer, and of Dxyn only the cells and the flag depend on it (R32). -/
theorem displayUnread : Obligations.DisplayUnread := by
  unfold Obligations.DisplayUnread
  intro s d
  have hstep : Lockstep (SameBut (onDisplay s)) (step s) (step (s.setDisplay d)) := by
    have hd (t : State) : SameBut (onDisplay s) t (t.setDisplay d) := (setDisplay_frame t d).mono fun _ => .inl
    refine step_lockstep (c := otherDisplay d) (hd _) fun i hi => ?_
    cases i with
    | cls => exact exec_lockstep_of_frame (hd _) (fun _ => .inl) (fun _ => .inl) trivial
    | drw x y n =>
      have hw (p : Piece) : p = .reg 15 ∨ (∃ r c, p = .cell r c) → onDisplay s p :=
        fun h => h.symm.imp_right fun h15 => ⟨h15, x, y, n, hi⟩
      exact exec_lockstep_of_frame (hd _) hw hw (execDrw_lockstep d x y n _)
    | _ =>
      refine (exec_change ?_).mono fun t t' _ _ ht => ht ▸ hd t
      simp [Change.Unseen, otherDisplay]
  exact ⟨fun t => hstep.next, fun f => hstep.fault⟩

/-- Settles O60: only a Cxnn draws, and what it draws goes to its own register (R34, R36, log 6). -/
theorem drawsAreNoState : Obligations.DrawsAreNoState := by
  unfold Obligations.DrawsAreNoState
  intro s n
  have hstep : Lockstep (SameBut (onDraws s)) (step s) (step (s.setDraws n)) := by
    have hd (t : State) : SameBut (onDraws s) t (t.setDraws n) := (setDraws_frame t n).mono fun _ => .inl
    refine step_lockstep (c := otherDraws n) (hd _) fun i hi => ?_
    cases i with
    | rnd x nn =>
      have hw (p : Piece) : p = .reg x ∨ p = .draws → onDraws s p := fun h => h.symm.imp_right fun hx => ⟨x, nn, hx, hi⟩
      exact exec_lockstep_of_frame (hd _) hw hw trivial
    | _ =>
      refine (exec_change ?_).mono fun t t' _ _ ht => ht ▸ hd t
      simp [Change.Unseen, otherDraws]
  refine ⟨fun t => hstep.next, fun f => hstep.fault, (otherDraws n).stepReport_on s, fun p a b h => ?_⟩
  unfold CpuState.step
  rw [State.toCpuState_toState, stepWith_draw_unused p a b (by rwa [fetchWith_setDraws])]

end Sys2Proof.Proofs
end

section
/-!
SUPPORT. Dxyn in the terms of its statement: the row and column of R181 solved for the line and the bit, and from there that
a sprite covers exactly the cells of its pixels.
-/
namespace Sys2Proof.Machine

theorem eq_spriteRow_iff {cy : Byte} {l : Nat} (hl : l < 32) (r : Fin 32) :
    r = spriteRow cy l ↔ l = (r.val + 256 - cy.toNat) % 32 := by
  have := cy.isLt
  simp only [spriteRow, Fin.ext_iff]
  omega

theorem eq_spriteCol_iff {cx : Byte} {k : Nat} (hk : k < 64) (c : Fin 64) :
    c = spriteCol cx k ↔ k = (c.val + 256 - cx.toNat) % 64 := by
  have := cx.isLt
  simp only [spriteCol, Fin.ext_iff]
  omega

theorem spriteCovers_iff_spritePixel (s : State) (x y : RegIdx) (n : Nibble) (r : Fin 32) (c : Fin 64) :
    spriteCovers (fun k => Memory.read s.mem (s.i.toNat + k)) (s.reg x) (s.reg y) n.toNat r c ↔
      spritePixel s x y n r c = true := by
  have hn := n.isLt
  simp only [spriteCovers, lineCovers, spritePixel, Bool.and_eq_true, decide_eq_true_eq]
  constructor
  · rintro ⟨l, hl, hr, k, hk, hbit, hc⟩
    rw [← (eq_spriteRow_iff (by omega) r).mp hr, ← (eq_spriteCol_iff (by omega) c).mp hc]
    exact ⟨⟨hl, hk⟩, hbit⟩
  · rintro ⟨⟨hl, hk⟩, hbit⟩
    exact ⟨_, hl, (eq_spriteRow_iff (by omega) r).mpr rfl, _, hk, hbit, (eq_spriteCol_iff (by omega) c).mpr rfl⟩

theorem drawn_cell (s : State) (x y : RegIdx) (n : Nibble) (r : Fin 32) (c : Fin 64) :
    Display.cell (drawn x y n s).1 r c = (Display.cell s.display r c ^^ spritePixel s x y n r c) := by
  have hn := n.isLt
  rw [drawn, (drawLines_spec _ _ _ (by omega) _).1 r c]
  simp only [spriteCovers_iff_spritePixel]
  cases spritePixel s x y n r c <;> simp

theorem drawn_collision (s : State) (x y : RegIdx) (n : Nibble) :
    (drawn x y n s).2 = true ↔ ∃ r c, spritePixel s x y n r c = true ∧ Display.cell s.display r c = true := by
  have hn := n.isLt
  rw [drawn, (drawLines_spec _ _ _ (by omega) _).2]
  simp only [spriteCovers_iff_spritePixel, Bool.false_eq_true, false_or]

end Sys2Proof.Machine

namespace Sys2Proof.Proofs
open Sys2Proof.Machine

/-- Settles O48: Dxyn flips the cells of its pixels and tells whether one was set (R181, R182). -/
theorem drawSprite : Obligations.DrawSprite := by
  unfold Obligations.DrawSprite
  intro s x y n
  have heq : exec (.drw x y n) s = _ := execDrw_eq x y n s
  refine ⟨fun hin => ?_, fun hpos hout => ?_⟩
  · rw [if_neg (by omega)] at heq
    refine ⟨_, heq, fun r c => drawn_cell s x y n r c, ?_, exec_frame heq⟩
    rw [State.setReg_reg_self]
    cases hcol : (drawn x y n s).2 with
    | true => exact .inl ⟨rfl, (drawn_collision s x y n).mp hcol⟩
    | false =>
      refine .inr ⟨rfl, fun r c hpix => ?_⟩
      by_contra hset
      rw [(drawn_collision s x y n).mpr ⟨r, c, hpix, by simpa using hset⟩] at hcol
      cases hcol
  · rw [heq, if_pos ⟨hpos, hout⟩]

end Sys2Proof.Proofs
end

section
/-!
SUPPORT. The word at `pc` and what the step does with it (R64, R90): the fetched word as a number, the step by whether that
word decodes, the report of one that does not, and the bytes that an Fx55 leaves in memory (R174).
-/
namespace Sys2Proof.Machine

/-- A fetched word as a number: the byte at the lower address counts 256 (R62, R64). -/
theorem Memory.readWord_toNat (m : Memory) (a : Nat) :
    (Memory.readWord m a).toNat = (Memory.read m a).toNat * 256 + (Memory.read m (a + 1)).toNat :=
  wordOfBytes_toNat _ _

section
variable {s : State} (hpc : s.pc.toNat ≤ 4094)
include hpc

theorem fetch_of_le : fetch s = .ok (Memory.readWord s.mem s.pc.toNat) := by
  rw [fetch_eq, if_neg (by omega)]

theorem step_of_decode_ok {i : Instr} (hd : decode (Memory.readWord s.mem s.pc.toNat) = .ok i) :
    step s = exec i s.advance := by
  rw [step_eq, if_neg (by omega), hd]

theorem step_of_decode_error {e : DecodeReject} (hd : decode (Memory.readWord s.mem s.pc.toNat) = .error e) :
    step s = .next s.advance := by
  rw [step_eq, if_neg (by omega), hd]

theorem stepReport_of_decode_error {e : DecodeReject} (hd : decode (Memory.readWord s.mem s.pc.toNat) = .error e) :
    stepReport s = some .unknownOpcode := by
  simp only [stepReport, fetch_of_le hpc, hd, unknownOpcode]

end

/-- An Fx55 that completes stored inside memory (R67). -/
theorem execStRegs_in_range {x : RegIdx} {s t : State} (h : execStRegs x s = .next t) : s.i.toNat + x.val ≤ 4095 := by
  rw [execStRegs_eq] at h
  split_ifs at h with hout
  omega

/-- After an Fx55, byte `k` from `i` is register `k` (R174). -/
theorem execStRegs_read {x k : RegIdx} {s t : State} (h : execStRegs x s = .next t) (hk : k.val ≤ x.val) :
    Memory.read t.mem (s.i.toNat + k.val) = s.reg k := by
  have hin := execStRegs_in_range h
  rw [execStRegs_eq, if_neg (by omega)] at h
  cases h
  rw [State.setI_mem, State.setMem_mem, storeSeq_read, if_pos (by omega), Nat.add_sub_cancel_left, State.regAt_of_lt s k.isLt]

end Sys2Proof.Machine

namespace Sys2Proof.Proofs
open Sys2Proof.Machine

/-- Settles O5: the step in its order, with the word given by its two bytes (R90). -/
theorem stepRunsDecoded : Obligations.StepRunsDecoded := by
  unfold Obligations.StepRunsDecoded
  intro s
  refine ⟨fun hpc => by rw [step_eq, if_pos hpc], fun hpc w hw => ?_⟩
  have hword : w = Memory.readWord s.mem s.pc.toNat :=
    BitVec.eq_of_toNat_eq (hw.trans (Memory.readWord_toNat _ _).symm)
  subst hword
  exact ⟨fun i hd => step_of_decode_ok hpc hd,
    fun e hd => ⟨step_of_decode_error hpc hd, stepReport_of_decode_error hpc hd⟩⟩

/-- Settles O46: Fx55 leaves `pc` alone, so the next fetch reads two of the bytes just stored (R75). -/
theorem storeIsFetched : Obligations.StoreIsFetched := by
  unfold Obligations.StoreIsFetched
  intro s t x k j h hj hjx hpc
  have hin := execStRegs_in_range h
  have htpc : t.pc.toNat = s.pc.toNat := execStRegs_frame h .pc (by simp [mayWrite])
  have hhi : Memory.read t.mem t.pc.toNat = s.reg k := by
    rw [htpc, hpc]
    exact execStRegs_read h (by omega)
  have hlo : Memory.read t.mem (t.pc.toNat + 1) = s.reg j := by
    rw [htpc, hpc, Nat.add_assoc, ← hj]
    exact execStRegs_read h hjx
  exact ⟨_, fetch_of_le (by omega), by rw [Memory.readWord_toNat, hhi, hlo]⟩

end Sys2Proof.Proofs
end

section
/-!
SUPPORT. Decoder and encoder against each other (R92, R99): what each table of the decoder makes of a word of its format,
and, the other way, that what each table answers encodes to the word it was asked about.
-/
namespace Sys2Proof

section
variable (x y : RegIdx) (n : Nibble) (b : Byte)

theorem decode_formatR_8 : decode (formatR 0x8 x y n) = decodeGroup8 (formatR 0x8 x y n) := by
  simp [decode]

theorem decode_formatI_E : decode (formatI 0xE x b) = decodeGroupE (formatI 0xE x b) := by
  simp [decode]

theorem decode_formatI_F : decode (formatI 0xF x b) = decodeGroupF (formatI 0xF x b) := by
  simp [decode]

end

/-- Every instruction is read back from its word: by its high digit alone, by its group's table, or as a fixed word. -/
theorem decode_encode (i : Instr) : decode (encode i) = .ok i := by
  cases i with
  | cls | ret => decide
  | jp | call | ldI | jpV0 => simp [encode, decode]
  | seImm | sneImm | ldImm | addImm | rnd => simp [encode, decode]
  | seReg | sneReg | drw => simp [encode, decode]
  | ldReg | orReg | andReg | xorReg | addReg | sub | shr | subn | shl =>
    rw [encode, decode_formatR_8]
    simp [decodeGroup8]
  | skp | sknp =>
    rw [encode, decode_formatI_E]
    simp [decodeGroupE]
  | ldVxDt | ldVxK | ldDtVx | ldStVx | addI | ldF | ldB | stRegs | ldRegs =>
    rw [encode, decode_formatI_F]
    simp [decodeGroupF]

/-- The decoder reads a word's two bytes, high byte first, as it reads the word, and takes no other byte (R91). -/
theorem decodeBytes_bytes {w : Word} {i : Instr} (h : decode w = .ok i) (rest : List Byte) :
    decodeBytes (hiByte w :: loByte w :: rest) = .ok (i, rest) := by
  simp [decodeBytes, h]

section
variable {w : Word} {i : Instr}

theorem encode_of_decodeGroup0 (h : decodeGroup0 w = .ok i) : encode i = w := by
  unfold decodeGroup0 at h
  split_ifs at h with hcls hret
  · cases h; exact hcls.symm
  · cases h; exact hret.symm

theorem encode_of_decodeGroup8 (hd : (digit3 w).toNat = 0x8) (h : decodeGroup8 w = .ok i) : encode i = w := by
  unfold decodeGroup8 at h
  split at h <;> cases h <;> exact formatR_fields hd ‹_›

/-- A word by its high digit and its low byte, as format I lays it out. -/
theorem formatI_of_fieldNN {d : Nibble} {b : Byte} (hd : (digit3 w).toNat = d.toNat) (hb : fieldNN w = b) :
    formatI d (fieldX w) b = w := by
  rw [← hb, formatI_fields hd]

theorem encode_of_decodeGroupE (hd : (digit3 w).toNat = 0xE) (h : decodeGroupE w = .ok i) : encode i = w := by
  unfold decodeGroupE at h
  split_ifs at h <;> cases h <;> exact formatI_of_fieldNN hd ‹_›

theorem encode_of_decodeGroupF (hd : (digit3 w).toNat = 0xF) (h : decodeGroupF w = .ok i) : encode i = w := by
  unfold decodeGroupF at h
  split_ifs at h <;> cases h <;> exact formatI_of_fieldNN hd ‹_›

/-- What a word decodes to encodes to that word: each arm of the decoder keeps every field of the word. The
cases below are the high digits, `h_1` for digit 0 to `h_16` for digit 0xF (R95). -/
theorem encode_of_decode (h : decode w = .ok i) : encode i = w := by
  have hlt := (digit3 w).isLt
  unfold decode at h
  split at h
  case h_1 => exact encode_of_decodeGroup0 h
  case h_2 | h_3 | h_11 | h_12 => cases h; exact formatA_fields ‹_›
  case h_4 | h_5 | h_7 | h_8 | h_13 => cases h; exact formatI_fields ‹_›
  case h_6 | h_10 =>
    split_ifs at h with hn
    cases h
    exact formatR_fields ‹_› (congrArg BitVec.toNat hn)
  case h_9 => exact encode_of_decodeGroup8 ‹_› h
  case h_14 => cases h; exact formatR_fields ‹_› rfl
  case h_15 => exact encode_of_decodeGroupE ‹_› h
  case h_16 =>
    have hF : (digit3 w).toNat = 0xF := by
      simp only [imp_false] at *
      omega
    exact encode_of_decodeGroupF hF h

end

end Sys2Proof

namespace Sys2Proof.Proofs

/-- Settles O1: each instruction's word is read back (R99), and so are its two bytes, which hold the word (R91). -/
theorem decodeEncode : Obligations.DecodeEncode := by
  unfold Obligations.DecodeEncode
  exact fun i => ⟨decode_encode i, decodeBytes_bytes (decode_encode i) []⟩

/-- Settles O2: every arm of the decoder answers an instruction whose word is the one it was given (R99). -/
theorem decodeOnlyEncodings : Obligations.DecodeOnlyEncodings := by
  unfold Obligations.DecodeOnlyEncodings
  exact fun _ _ => encode_of_decode

end Sys2Proof.Proofs
end

section
/-!
SUPPORT. The call stack with its entries numbered (R29): what 2nnn and 00EE do when `sp` counts `k` or `k + 1` entries, and that
the one undoes the other but for the entry it leaves behind.
-/
namespace Sys2Proof.Machine

theorem setStackEntry_frame (s : State) (k : Fin 16) (a : Word) :
    SameBut (fun p => p = .stackEntry k) s { s with stack := s.stack.set k.val a } := by
  intro p hp
  cases p with
  | stackEntry j =>
    have hj : k.val ≠ j.val := fun h => hp (by rw [Fin.ext h])
    simp [State.piece, hj]
  | _ => rfl

theorem exec_call_of_sp_eq {s : State} {k : Fin 16} (hk : s.sp.val = k.val) (nnn : Addr12) :
    exec (.call nnn) s =
      .next { s with stack := s.stack.set k.val s.pc, sp := k.succ, pc := addrOperand nnn } := by
  rcases execCall_cases nnn s with ⟨_, -, he⟩ | ⟨hfull, -, -⟩
  · simp only [hk] at he
    exact he
  · omega

theorem exec_ret_of_sp_eq_succ {s : State} {k : Fin 16} (hk : s.sp.val = k.val + 1) :
    exec .ret s = .next { s with sp := k.castSucc, pc := s.stack[k.val] } := by
  rcases execRet_cases s with ⟨_, -, he⟩ | ⟨hempty, -, -⟩
  · simp only [hk, Nat.add_sub_cancel] at he
    exact he
  · omega

theorem exec_ret_of_sp_eq_zero {s : State} (h : s.sp.val = 0) : exec .ret s = .next s := by
  rcases execRet_cases s with ⟨hpos, -, -⟩ | ⟨-, -, he⟩
  · omega
  · exact he

/-- A return anywhere after a call restores everything but the entry the call filled, which keeps the return address (R29). -/
theorem exec_ret_after_call {s : State} {k : Fin 16} (hk : s.sp.val = k.val) (a : Word) :
    exec .ret { s with stack := s.stack.set k.val s.pc, sp := k.succ, pc := a } =
      .next { s with stack := s.stack.set k.val s.pc } := by
  rw [exec_ret_of_sp_eq_succ (k := k) rfl]
  have hsp : k.castSucc = s.sp := Fin.ext hk.symm
  simp [hsp]

end Sys2Proof.Machine

namespace Sys2Proof.Proofs
open Sys2Proof.Machine

/-- Settles O23: 00EE has one word (D17), and it pops the entry below `sp` or, with none in use, reports (R120). -/
theorem returnInstr : Obligations.Return := by
  unfold Obligations.Return
  refine ⟨fun w => ⟨fun h => (encode_of_decode h).symm, ?_⟩, fun s => ⟨fun h0 => ?_, fun k hk => ?_⟩⟩
  · rintro rfl
    exact decode_encode .ret
  · exact ⟨exec_ret_of_sp_eq_zero h0, by rw [report_ret_eq, if_neg (by omega)]⟩
  · have hret := exec_ret_of_sp_eq_succ hk
    exact ⟨_, hret, by rw [report_ret_eq, if_pos (by omega)], rfl, rfl, fun hinv => hinv.stack_le k (by omega),
      exec_frame hret⟩

/-- Settles O26: the popped entry is the one the call pushed, wherever the 00EE stands (R120, R122). -/
theorem callThenReturn : Obligations.CallThenReturn := by
  unfold Obligations.CallThenReturn
  intro s nnn k hk
  exact ⟨_, exec_call_of_sp_eq hk nnn, fun a => ⟨_, exec_ret_after_call hk a, setStackEntry_frame s k s.pc⟩⟩

end Sys2Proof.Proofs
end

section
/-!
SUPPORT. 6xnn and 7xnn as one register write each (R140, R141), the sum of the second as a number.
-/
namespace Sys2Proof.Machine

theorem exec_ldImm (x : RegIdx) (nn : Byte) (s : State) : exec (.ldImm x nn) s = .next (s.setReg x nn) := rfl

theorem exec_addImm (x : RegIdx) (nn : Byte) (s : State) :
    exec (.addImm x nn) s = .next (s.setReg x (s.reg x + nn)) := rfl

/-- The sum that 7xnn leaves, and-ed with 0xFF in the source, is the sum modulo 256 (R141). -/
theorem setReg_add_reg_toNat (s : State) (x : RegIdx) (nn : Byte) :
    ((s.setReg x (s.reg x + nn)).reg x).toNat = ((s.reg x).toNat + nn.toNat) % 256 := by
  rw [State.setReg_reg_self, BitVec.toNat_add]

end Sys2Proof.Machine

namespace Sys2Proof.Proofs
open Sys2Proof.Machine

/-- Settles O30: 6xnn is one write of the literal to `v[x]` (R140). -/
theorem loadLiteral : Obligations.LoadLiteral := by
  unfold Obligations.LoadLiteral
  intro s x nn
  exact ⟨decode_encode (.ldImm x nn), rfl, _, exec_ldImm x nn s, State.setReg_reg_self s x nn, setReg_frame s x nn⟩

/-- Settles O31: 7xnn is one write of the 8-bit sum to `v[x]`, with no write of a carry beside it (R141). -/
theorem addLiteral : Obligations.AddLiteral := by
  unfold Obligations.AddLiteral
  intro s x nn
  exact ⟨decode_encode (.addImm x nn), rfl, _, exec_addImm x nn s, setReg_add_reg_toNat s x nn, setReg_frame s x _⟩

end Sys2Proof.Proofs
end

section
/-!
SUPPORT. 8xy0 to 8xy3 as one register write each (R150 to R153), and what one register write is for a reader of the state: the
value in `v[x]` and no other piece changed (R161).
-/
namespace Sys2Proof.Machine

theorem exec_ldReg (x y : RegIdx) (s : State) : exec (.ldReg x y) s = .next (s.setReg x (s.reg y)) := rfl

theorem exec_orReg (x y : RegIdx) (s : State) : exec (.orReg x y) s = .next (s.setReg x (s.reg x ||| s.reg y)) := rfl

theorem exec_andReg (x y : RegIdx) (s : State) : exec (.andReg x y) s = .next (s.setReg x (s.reg x &&& s.reg y)) := rfl

theorem exec_xorReg (x y : RegIdx) (s : State) : exec (.xorReg x y) s = .next (s.setReg x (s.reg x ^^^ s.reg y)) := rfl

theorem writes_reg_alone_of_exec_eq {i : Instr} {s : State} {x : RegIdx} {b : Byte}
    (h : exec i s = .next (s.setReg x b)) :
    ∃ t, exec i s = .next t ∧ t.reg x = b ∧ SameBut (fun p => p = .reg x) s t :=
  ⟨_, h, State.setReg_reg_self s x b, setReg_frame s x b⟩

end Sys2Proof.Machine

namespace Sys2Proof.Proofs
open Sys2Proof.Machine

/-- Settles O33: each of the four is one write to `v[x]`, and none writes a flag (R150 to R153, R161, D15). -/
theorem assignAndBitwise : Obligations.AssignAndBitwise := by
  unfold Obligations.AssignAndBitwise
  intro s x y
  exact ⟨writes_reg_alone_of_exec_eq (exec_ldReg x y s), writes_reg_alone_of_exec_eq (exec_orReg x y s),
    writes_reg_alone_of_exec_eq (exec_andReg x y s), writes_reg_alone_of_exec_eq (exec_xorReg x y s)⟩

end Sys2Proof.Proofs
end

section
/-!
SUPPORT. Annn and Fx1E as one write of `i` each (R170, R171), with the values they write as numbers: an operand widened to 16
bits keeps its value (R94).
-/
namespace Sys2Proof.Machine

theorem addrOperand_toNat (nnn : Addr12) : (addrOperand nnn).toNat = nnn.toNat :=
  BitVec.toNat_setWidth_of_le (by decide)

theorem byteOperand_toNat (b : Byte) : (byteOperand b).toNat = b.toNat :=
  BitVec.toNat_setWidth_of_le (by decide)

theorem add_byteOperand_toNat (a : Word) (b : Byte) : (a + byteOperand b).toNat = (a.toNat + b.toNat) % 65536 := by
  rw [BitVec.toNat_add, byteOperand_toNat]

theorem exec_ldI (nnn : Addr12) (s : State) : exec (.ldI nnn) s = .next (s.setI (addrOperand nnn)) := rfl

theorem exec_addI (x : RegIdx) (s : State) : exec (.addI x) s = .next (s.setI (s.i + byteOperand (s.reg x))) := rfl

end Sys2Proof.Machine

namespace Sys2Proof.Proofs
open Sys2Proof.Machine

/-- Settles O39: Annn is one write of the widened address to `i` (R170). -/
theorem loadIndex : Obligations.LoadIndex := by
  unfold Obligations.LoadIndex
  intro s nnn
  exact ⟨decode_encode (.ldI nnn), rfl, _, exec_ldI nnn s, addrOperand_toNat nnn, setI_frame s _⟩

/-- Settles O40: Fx1E is one write of the 16-bit sum to `i`, with no write of a flag beside it (R171). -/
theorem addToIndex : Obligations.AddToIndex := by
  unfold Obligations.AddToIndex
  intro s x
  exact ⟨decode_encode (.addI x), rfl, _, exec_addI x s, add_byteOperand_toNat s.i (s.reg x), setI_frame s _⟩

end Sys2Proof.Proofs
end

section
/-!
SUPPORT. 00E0 as one write of the framebuffer (R180), and a completed Dxyn as the range it draws in and the state it leaves,
with what the pixels of a sprite depend on: a draw changes none of it unless its coordinate is in the flag register (R183).
-/
namespace Sys2Proof.Machine

theorem decode_eq_ok_iff (w : Word) (i : Instr) : decode w = .ok i ↔ w = encode i :=
  ⟨fun h => (encode_of_decode h).symm, fun h => h ▸ decode_encode i⟩

theorem exec_cls (s : State) : exec .cls s = .next (s.setDisplay Display.clear) := rfl

theorem flagByte_eq_one_iff (c : Bool) : flagByte c = 1 ↔ c = true := by
  cases c <;> decide

/-- The state a completed Dxyn leaves (R181). -/
def afterDraw (x y : RegIdx) (n : Nibble) (s : State) : State :=
  (s.setDisplay (drawn x y n s).1).setReg 15 (flagByte (drawn x y n s).2)

theorem exec_drw_eq_next_iff {x y : RegIdx} {n : Nibble} {s t : State} :
    exec (.drw x y n) s = .next t ↔ ¬ (0 < n.toNat ∧ 4096 < s.i.toNat + n.toNat) ∧ t = afterDraw x y n s := by
  have heq : exec (.drw x y n) s = _ := execDrw_eq x y n s
  rw [heq]
  split_ifs with hout
  · simp [hout]
  · simp [hout, afterDraw, eq_comm]

theorem spritePixel_congr {s t : State} {x y : RegIdx} (hmem : t.mem = s.mem) (hi : t.i = s.i) (hx : t.reg x = s.reg x)
    (hy : t.reg y = s.reg y) (n : Nibble) (r : Fin 32) (c : Fin 64) : spritePixel t x y n r c = spritePixel s x y n r c := by
  simp only [spritePixel, hmem, hi, hx, hy]

section
variable (s : State) (x y : RegIdx) (n : Nibble)

theorem afterDraw_cell (r : Fin 32) (c : Fin 64) :
    Display.cell (afterDraw x y n s).display r c = (Display.cell s.display r c ^^ spritePixel s x y n r c) :=
  drawn_cell s x y n r c

theorem afterDraw_flag_eq_one_iff :
    (afterDraw x y n s).reg 15 = 1 ↔ ∃ r c, spritePixel s x y n r c = true ∧ Display.cell s.display r c = true := by
  rw [afterDraw, State.setReg_reg_self, flagByte_eq_one_iff, drawn_collision]

theorem afterDraw_spritePixel (hx : x ≠ 15) (hy : y ≠ 15) (r : Fin 32) (c : Fin 64) :
    spritePixel (afterDraw x y n s) x y n r c = spritePixel s x y n r c :=
  spritePixel_congr (s := s) (t := afterDraw x y n s) rfl rfl (State.setReg_reg_ne _ hx _)
    (State.setReg_reg_ne _ hy _) n r c

end

end Sys2Proof.Machine

namespace Sys2Proof.Proofs
open Sys2Proof.Machine

/-- Settles O50: the second draw has the pixels of the first, so each cell is XORed with its pixel twice, and a cell that the
first draw left set under a pixel was clear before it (R183). -/
theorem drawTwiceRestores : Obligations.DrawTwiceRestores := by
  unfold Obligations.DrawTwiceRestores
  intro s t x y n hx hy h
  obtain ⟨hin, rfl⟩ := exec_drw_eq_next_iff.mp h
  refine ⟨_, exec_drw_eq_next_iff.mpr ⟨hin, rfl⟩, Display.ext_cells fun r c => ?_, ?_⟩
  · rw [afterDraw_cell, afterDraw_cell, afterDraw_spritePixel s x y n hx hy, Bool.xor_assoc, Bool.xor_self, Bool.xor_false]
  · rw [afterDraw_flag_eq_one_iff]
    refine exists_congr fun r => exists_congr fun c => ?_
    rw [afterDraw_spritePixel s x y n hx hy, afterDraw_cell]
    cases Display.cell s.display r c <;> simp

/-- Settles O47: no other word decodes to 00E0 (R180, D17), which is one write of the clear framebuffer. -/
theorem clearDisplay : Obligations.ClearDisplay := by
  unfold Obligations.ClearDisplay
  exact ⟨fun w => decode_eq_ok_iff w .cls,
    fun s => ⟨rfl, _, exec_cls s, Display.cell_clear, setDisplay_frame s Display.clear⟩⟩

end Sys2Proof.Proofs
end

section
/-!
SUPPORT. `loadProgram` by the length of the image (R213, R243), from any state: the state a load leaves, where the bytes of the
image stand in it, and that no other piece of the state changes.
-/
namespace Sys2Proof.Machine

/-- The state a completed load leaves (R243). -/
def afterLoad (s : State) (image : List Byte) : State :=
  s.setMem (storeSeq .fault Config.progBase (fun k => image.getD k 0) image.length s.mem)

section
variable (s : State) {image : List Byte}

theorem loadProgram_of_le (h : image.length ≤ Config.maxProg) : s.loadProgram image = .ok (afterLoad s image) :=
  if_neg (Nat.not_lt.mpr h)

theorem loadProgram_of_lt (h : Config.maxProg < image.length) : s.loadProgram image = .error .programTooLarge :=
  if_pos h

theorem afterLoad_read {k : Nat} (h : k < image.length) :
    Memory.read (afterLoad s image).mem (Config.progBase + k) = image[k] := by
  rw [afterLoad, State.setMem_mem, storeSeq_read, if_pos (by omega), Nat.add_sub_cancel_left, List.getD_eq_getElem _ _ h]

theorem afterLoad_frame :
    SameBut (fun p => ∃ k, p = .byte (Config.progBase + k) ∧ k < image.length) s (afterLoad s image) := by
  refine (storeSeq_frame s _ _ _).mono ?_
  rintro _ ⟨a, rfl, hbase, hend⟩
  obtain ⟨k, rfl⟩ := Nat.exists_eq_add_of_le hbase
  exact ⟨k, rfl, Nat.lt_of_add_lt_add_left hend⟩

end

/-- After the first step or load no image is taken, whatever it is (D22). -/
theorem act_load_late (p : Policies) {q : Session} (h : q.mayLoad = false) (image : Option (List Byte)) :
    Session.act p (.load image) q = .refused .lateLoad :=
  if_neg (Bool.eq_false_iff.mp h)

end Sys2Proof.Machine

namespace Sys2Proof.Proofs
open Sys2Proof.Machine

/-- Settles O58: from reset, as from any state, the length of the image alone decides (R213, R243); a late load is refused
before the image is looked at (D22). -/
theorem loadProgram : Obligations.LoadProgram := by
  unfold Obligations.LoadProgram
  intro bytes
  refine ⟨fun hfits => ⟨_, loadProgram_of_le State.reset hfits, fun k hk => ?_, ?_⟩, fun hlong => ?_, fun p q hlate => ?_⟩
  · exact afterLoad_read State.reset hk
  · exact afterLoad_frame State.reset
  · exact loadProgram_of_lt State.reset hlong
  · exact act_load_late p hlate (some bytes)

end Sys2Proof.Proofs
end

section
/-!
SUPPORT. The instructions that can fault or wait, by when they have a next state and which one: the keypad instructions in the
terms of R193 and R225, and the accesses to memory (R67).
-/
namespace Sys2Proof.Machine

theorem anyPressed_eq_true_iff (s : State) : s.anyPressed = true ↔ ∃ k, s.isPressed k = true := by
  simp only [State.anyPressed, State.isPressed, List.any_eq_true, id, exists_eq_right, Vector.mem_toList_iff,
    Vector.mem_iff_getElem]
  exact ⟨fun ⟨k, hk, h⟩ => ⟨⟨k, hk⟩, h⟩, fun ⟨k, h⟩ => ⟨k.val, k.isLt, h⟩⟩

theorem lowestKey_eq_none_iff (s : State) : lowestKey s = none ↔ s.anyPressed = false := by
  rw [lowestKey_none, ← Bool.not_eq_true, anyPressed_eq_true_iff]
  simp

/-- Fx0A either waits, with no key down, or stores the least key that is down (R192). -/
theorem execLdVxK_cases (x : RegIdx) (s : State) :
    (s.anyPressed = false ∧ execLdVxK x s = .next s.rewind) ∨
      (s.anyPressed = true ∧ ∃ k, lowestKey s = some k ∧ execLdVxK x s = .next (s.setReg x (BitVec.ofNat 8 k))) := by
  unfold execLdVxK
  cases hk : lowestKey s with
  | none => exact .inl ⟨(lowestKey_eq_none_iff s).mp hk, rfl⟩
  | some k =>
    refine .inr ⟨?_, k, rfl, rfl⟩
    rw [← Bool.not_eq_false, ← lowestKey_eq_none_iff, hk]
    exact nofun

/-- A byte numbers a key, or it is above 15 (R193). -/
theorem eq_key_or_gt (b : Byte) : (∃ k : Fin 16, b.toNat = k.val) ∨ 15 < b.toNat := by
  by_cases h : b.toNat < 16
  · exact .inl ⟨⟨b.toNat, h⟩, rfl⟩
  · exact .inr (by omega)

section
variable {s : State} {x : RegIdx}

theorem keyIsDown_of_eq {b : Byte} {k : Fin 16} (hk : b.toNat = k.val) : keyIsDown s b = s.isPressed k := by
  rw [keyIsDown, dif_pos (by omega)]
  exact congrArg s.isPressed (Fin.ext hk)

theorem exec_skp_of_key {k : Fin 16} (hk : (s.reg x).toNat = k.val) :
    exec (.skp x) s = .next (s.setPc (if s.isPressed k then s.pc + 2 else s.pc)) := by
  rw [exec, execSkp_eq, dif_pos (by omega)]
  simp only [hk]

theorem exec_sknp_of_key {k : Fin 16} (hk : (s.reg x).toNat = k.val) :
    exec (.sknp x) s = .next (s.setPc (if s.isPressed k then s.pc else s.pc + 2)) := by
  rw [exec, execSknp_eq, dif_pos (by omega)]
  simp only [hk]

theorem exec_skp_of_gt (h : 15 < (s.reg x).toNat) : exec (.skp x) s = .fault (.keyIndex (s.reg x)) := by
  rw [exec, execSkp_eq, dif_neg (by omega)]

theorem exec_sknp_of_gt (h : 15 < (s.reg x).toNat) : exec (.sknp x) s = .fault (.keyIndex (s.reg x)) := by
  rw [exec, execSknp_eq, dif_neg (by omega)]

end

theorem exec_skp_eq (x : RegIdx) (s : State) :
    exec (.skp x) s = if 15 < (s.reg x).toNat then .fault (.keyIndex (s.reg x))
      else .next (s.setPc (if keyIsDown s (s.reg x) then s.pc + 2 else s.pc)) := by
  rcases eq_key_or_gt (s.reg x) with ⟨k, hk⟩ | hgt
  · have hle : ¬ 15 < (s.reg x).toNat := by omega
    rw [exec_skp_of_key hk, if_neg hle, keyIsDown_of_eq hk]
  · rw [exec_skp_of_gt hgt, if_pos hgt]

theorem exec_sknp_eq (x : RegIdx) (s : State) :
    exec (.sknp x) s = if 15 < (s.reg x).toNat then .fault (.keyIndex (s.reg x))
      else .next (s.setPc (if keyIsDown s (s.reg x) then s.pc else s.pc + 2)) := by
  rcases eq_key_or_gt (s.reg x) with ⟨k, hk⟩ | hgt
  · have hle : ¬ 15 < (s.reg x).toNat := by omega
    rw [exec_sknp_of_key hk, if_neg hle, keyIsDown_of_eq hk]
  · rw [exec_sknp_of_gt hgt, if_pos hgt]

theorem ite_fault_next_eq_next_iff {c : Prop} [Decidable c] {f : Fault} {t u : State} :
    (if c then .fault f else .next t : Host.Outcome State Fault Refusal) = .next u ↔ ¬ c ∧ u = t := by
  split_ifs with h <;> simp [h, eq_comm]

section
variable {s t : State} {x : RegIdx}

theorem exec_skp_eq_next_iff : exec (.skp x) s = .next t ↔ ¬ 15 < (s.reg x).toNat ∧
    t = s.setPc (if keyIsDown s (s.reg x) then s.pc + 2 else s.pc) := by
  rw [exec_skp_eq, ite_fault_next_eq_next_iff]

theorem exec_sknp_eq_next_iff : exec (.sknp x) s = .next t ↔ ¬ 15 < (s.reg x).toNat ∧
    t = s.setPc (if keyIsDown s (s.reg x) then s.pc else s.pc + 2) := by
  rw [exec_sknp_eq, ite_fault_next_eq_next_iff]

theorem exec_ldB_eq_next_iff : exec (.ldB x) s = .next t ↔ ¬ 4093 < s.i.toNat ∧
    t = s.setMem (storeSeq .fault s.i.toNat (decimalDigit (s.reg x)) 3 s.mem) := by
  rw [exec, execLdB_eq, ite_fault_next_eq_next_iff]

theorem exec_stRegs_eq_next_iff : exec (.stRegs x) s = .next t ↔ ¬ 4095 < s.i.toNat + x.val ∧
    t = (s.setMem (storeSeq .fault s.i.toNat s.regAt (x.val + 1) s.mem)).setI (s.i + BitVec.ofNat 16 (x.val + 1)) := by
  rw [exec, execStRegs_eq, ite_fault_next_eq_next_iff]

theorem exec_ldRegs_eq_next_iff : exec (.ldRegs x) s = .next t ↔ ¬ 4095 < s.i.toNat + x.val ∧
    t = State.loadSeq (fun k => Memory.read s.mem (s.i.toNat + k)) (x.val + 1) s := by
  rw [exec, execLdRegs_eq, ite_fault_next_eq_next_iff]

end

end Sys2Proof.Machine
end

section
/-!
SUPPORT. Where `pc` stands after an instruction (R25): the skips as one choice between two addresses (R134), and the jumps, the
wait and the return each as the value they give `pc`.
-/
namespace Sys2Proof.Machine

theorem offsetTarget_toNat (s : State) (nnn : Addr12) :
    (offsetTarget s nnn).toNat = (s.reg 0).toNat + nnn.toNat := by
  have := (s.reg 0).isLt
  have := nnn.isLt
  rw [offsetTarget, BitVec.toNat_add, byteOperand_toNat, addrOperand_toNat]
  omega

section
variable {s t : State} (hpc : s.pc.toNat ≤ 4094)
include hpc

/-- A skip chooses between the instruction after the next and the next (R134). -/
theorem skipTarget_toNat (c : Prop) [Decidable c] :
    (if c then s.pc + 2 + 2 else s.pc + 2).toNat = if c then s.pc.toNat + 4 else s.pc.toNat + 2 := by
  rw [apply_ite BitVec.toNat, skip_toNat hpc, advance_toNat hpc]

theorem execLdVxK_pc {x : RegIdx} (h : execLdVxK x s.advance = .next t) : t.pc.toNat = pcAfter (.ldVxK x) s := by
  rcases execLdVxK_cases x s.advance with ⟨hkey, he⟩ | ⟨hkey, k, -, he⟩ <;> cases he.symm.trans h
  · exact (congrArg BitVec.toNat (BitVec.add_sub_cancel s.pc 2)).trans (if_neg (Bool.eq_false_iff.mp hkey)).symm
  · exact (advance_toNat hpc).trans (if_pos hkey).symm

theorem execRet_pc (h : execRet s.advance = .next t) : t.pc.toNat = pcAfter .ret s := by
  rcases execRet_cases s.advance with ⟨hsp, -, he⟩ | ⟨hsp, -, he⟩ <;> cases he.symm.trans h
  · have hin : s.sp.val - 1 < 16 := by omega
    refine Eq.trans ?_ (if_pos hsp).symm
    rw [Vector.getElem?_eq_getElem hin]
    rfl
  · exact (advance_toNat hpc).trans (if_neg (show ¬ 0 < s.sp.val from hsp.not_gt)).symm

/-- R25's table holds of every instruction; an instruction not named here leaves the advanced `pc` alone. -/
theorem exec_pc {i : Instr} (h : exec i s.advance = .next t) : t.pc.toNat = pcAfter i s := by
  cases i with
  | jp nnn => cases h; exact addrOperand_toNat nnn
  | call nnn => cases h; exact addrOperand_toNat nnn
  | jpV0 nnn => cases h; exact offsetTarget_toNat s nnn
  | ret => exact execRet_pc hpc h
  | seImm | sneImm | seReg | sneReg => cases h; rw [skipIf_decide]; exact skipTarget_toNat hpc _
  | skp => obtain ⟨-, rfl⟩ := exec_skp_eq_next_iff.mp h; exact skipTarget_toNat hpc _
  | sknp =>
    obtain ⟨-, rfl⟩ := exec_sknp_eq_next_iff.mp h
    exact (apply_ite BitVec.toNat _ _ _).trans (if_congr Iff.rfl (advance_toNat hpc) (skip_toNat hpc))
  | ldVxK => exact execLdVxK_pc hpc h
  | _ => exact (exec_frame h .pc (by simp [mayWrite])).trans (advance_toNat hpc)

end

end Sys2Proof.Machine

namespace Sys2Proof.Proofs
open Sys2Proof.Machine

/-- Settles O11: `pc` after a step is R25's entry for the instruction, or 2 further for a word that is none (R98). -/
theorem pcAfterStep : Obligations.PcAfterStep := by
  unfold Obligations.PcAfterStep
  intro s t h
  obtain ⟨hpc, -⟩ := step_next h
  refine ⟨fun i hd => ?_, fun e hd => ?_⟩
  · exact exec_pc hpc ((step_of_decode_ok hpc hd).symm.trans h)
  · cases (step_of_decode_error hpc hd).symm.trans h
    exact advance_toNat hpc

end Sys2Proof.Proofs
end

section
/-!
SUPPORT. The invariant of R42, part by part: memory stays canonical, `pc` stays at most 4350 by R25's table, and a return address
in use is one the fetch has advanced to, so at most 4096.
-/
namespace Sys2Proof.Machine

theorem exec_mem_wf {i : Instr} {s t : State} (hm : Memory.wf s.mem) (h : exec i s = .next t) : Memory.wf t.mem := by
  cases i with
  | ldB =>
    obtain ⟨hin, rfl⟩ := exec_ldB_eq_next_iff.mp h
    exact storeSeq_wf _ _ _ _ hm fun k hk => by rw [byteAddr_fault]; omega
  | stRegs =>
    obtain ⟨hin, rfl⟩ := exec_stRegs_eq_next_iff.mp h
    exact storeSeq_wf _ _ _ _ hm fun k hk => by rw [byteAddr_fault]; omega
  | ldRegs =>
    obtain ⟨-, rfl⟩ := exec_ldRegs_eq_next_iff.mp h
    rw [State.loadSeq_frame]
    exact hm
  | drw => obtain ⟨-, rfl⟩ := exec_drw_eq_next_iff.mp h; exact hm
  | ret => rcases execRet_cases s with ⟨_, -, he⟩ | ⟨-, -, he⟩ <;> cases he.symm.trans h <;> exact hm
  | call nnn => rcases execCall_cases nnn s with ⟨_, -, he⟩ | ⟨-, -, he⟩ <;> cases he.symm.trans h <;> exact hm
  | seImm | sneImm | seReg | sneReg => cases h; rw [skipIf_decide]; exact hm
  | skp => obtain ⟨-, rfl⟩ := exec_skp_eq_next_iff.mp h; exact hm
  | sknp => obtain ⟨-, rfl⟩ := exec_sknp_eq_next_iff.mp h; exact hm
  | ldVxK x =>
    rcases execLdVxK_cases x s with ⟨-, he⟩ | ⟨-, _, -, he⟩ <;> cases he.symm.trans h <;> exact hm
  | _ => cases h; exact hm

theorem State.Inv.pcAfter_le {s : State} (hs : s.Inv) (hpc : s.pc.toNat ≤ 4094) (i : Instr) : pcAfter i s ≤ 4350 := by
  cases i with
  | jp nnn | call nnn => have := nnn.isLt; simp only [pcAfter]; omega
  | jpV0 nnn => have := nnn.isLt; have := (s.reg 0).isLt; simp only [pcAfter]; omega
  | ret =>
    simp only [pcAfter]
    split_ifs with hsp
    · have hin : s.sp.val - 1 < 16 := by omega
      rw [Vector.getElem?_eq_getElem hin, Option.getD_some]
      exact (hs.stack_le ⟨s.sp.val - 1, hin⟩ (Nat.sub_lt hsp Nat.one_pos)).trans (by decide)
    · omega
  | seImm | sneImm | seReg | sneReg | skp | sknp | ldVxK => simp only [pcAfter]; split_ifs <;> omega
  | _ => simp only [pcAfter]; omega

/-- Every return address in use is at most `b`. -/
def ReturnsLE (b : Nat) (s : State) : Prop := ∀ k : Fin 16, k.val < s.sp.val → s.stack[k.val].toNat ≤ b

theorem execCall_returnsLE {b : Nat} {nnn : Addr12} {s t : State} (hpc : s.pc.toNat ≤ b) (hs : ReturnsLE b s)
    (h : execCall nnn s = .next t) : ReturnsLE b t := by
  rcases execCall_cases nnn s with ⟨hsp, -, he⟩ | ⟨-, -, he⟩ <;> cases he.symm.trans h
  · intro k hk
    by_cases hkn : s.sp.val = k.val
    · simpa [hkn] using hpc
    · simpa [hkn] using hs k (by simp only at hk; omega)
  · exact hs

theorem exec_returnsLE {b : Nat} {i : Instr} {s t : State} (hpc : s.pc.toNat ≤ b) (hs : ReturnsLE b s)
    (h : exec i s = .next t) : ReturnsLE b t := by
  by_cases hcall : ∃ nnn, i = .call nnn
  · obtain ⟨nnn, rfl⟩ := hcall
    exact execCall_returnsLE hpc hs h
  · intro k hk
    have hstack : t.stack[k.val].toNat = s.stack[k.val].toNat := exec_frame h (.stackEntry k) (by
      cases i with
      | call nnn => exact absurd ⟨nnn, rfl⟩ hcall
      | _ => simp [mayWrite])
    rw [hstack]
    exact hs k (hk.trans_le (exec_sp_le (fun nnn hi => hcall ⟨nnn, hi⟩) h))

theorem advance_pc_le {s : State} (hpc : s.pc.toNat ≤ 4094) : s.advance.pc.toNat ≤ 4096 :=
  (advance_toNat hpc).trans_le (Nat.add_le_add_right hpc 2)

theorem exec_inv {i : Instr} {s t : State} (hs : s.Inv) (hpc : s.pc.toNat ≤ 4094) (h : exec i s.advance = .next t) :
    t.Inv where
  mem_wf := exec_mem_wf (s := s.advance) hs.mem_wf h
  pc_le := exec_pc hpc h ▸ hs.pcAfter_le hpc i
  stack_le := exec_returnsLE (s := s.advance) (advance_pc_le hpc) hs.stack_le h

theorem advance_inv {s : State} (hs : s.Inv) (hpc : s.pc.toNat ≤ 4094) : s.advance.Inv where
  mem_wf := hs.mem_wf
  pc_le := (advance_pc_le hpc).trans (by decide)
  stack_le := hs.stack_le

theorem loadProgram_eq_ok_iff {s t : State} {image : List Byte} :
    s.loadProgram image = .ok t ↔ image.length ≤ Config.maxProg ∧ t = afterLoad s image := by
  by_cases h : image.length ≤ Config.maxProg
  · simp [loadProgram_of_le s h, h, eq_comm]
  · simp [loadProgram_of_lt s (not_le.mp h), h]

theorem afterLoad_mem_wf {s : State} (hm : Memory.wf s.mem) {image : List Byte} (h : image.length ≤ Config.maxProg) :
    Memory.wf (afterLoad s image).mem :=
  storeSeq_wf _ _ _ _ hm fun k hk => by simp only [byteAddr_fault, Config.progBase, Config.maxProg] at h ⊢; omega

end Sys2Proof.Machine

namespace Sys2Proof.Proofs
open Sys2Proof.Machine

/-- Settles O14: part by part, for an instruction and for an unrecognized word, which only advances `pc` (R42). -/
theorem stepKeepsInv : Obligations.StepKeepsInv := by
  unfold Obligations.StepKeepsInv
  intro s t hs h
  obtain ⟨hpc, ⟨i, -, he⟩ | ⟨e, -, rfl⟩⟩ := step_next h
  · exact exec_inv hs hpc he
  · exact advance_inv hs hpc

/-- Settles O16: a tick and a key event touch nothing the invariant speaks of, and a load ends at 4095 (R42, R243). -/
theorem hostKeepsInv : Obligations.HostKeepsInv := by
  unfold Obligations.HostKeepsInv
  intro s hs
  refine ⟨⟨hs.mem_wf, hs.pc_le, hs.stack_le⟩, fun k p => ⟨hs.mem_wf, hs.pc_le, hs.stack_le⟩, fun bytes t h => ?_⟩
  obtain ⟨hfits, rfl⟩ := loadProgram_eq_ok_iff.mp h
  exact ⟨afterLoad_mem_wf hs.mem_wf hfits, hs.pc_le, hs.stack_le⟩

/-- Settles O15: at reset the memory lists no byte, `pc` is 0x200 and no stack entry is in use (R40). -/
theorem resetInv : Obligations.ResetInv where
  mem_wf := Memory.nil_wf
  pc_le := by decide
  stack_le := fun k hk => absurd hk (Nat.not_lt_zero _)

end Sys2Proof.Proofs
end

section
/-!
SUPPORT. The tick beside an instruction (R224, R228): the operations that branch or repeat commute with a tick, and so does every
instruction that is not a timer copy.
-/
namespace Sys2Proof.Machine

/-- The copies between `v[x]` and the timers: Fx07, Fx15 and Fx18 (R200 to R202). -/
def isTimerCopy : Instr → Bool
  | .ldVxDt _ | .ldDtVx _ | .ldStVx _ => true
  | _ => false

theorem timerTick_toNat (b : Byte) : (timerTick b).toNat = b.toNat - 1 := by
  have := b.isLt
  unfold timerTick
  split_ifs with hpos
  · rw [BitVec.toNat_sub]
    simp only [BitVec.reduceToNat]
    omega
  · omega

section
variable (s : State)

theorem popReturn_tick : (popReturn s.tick).1 = (popReturn s).1.tick := by
  unfold popReturn
  by_cases hsp : 0 < s.sp.val
  · rw [dif_pos hsp, dif_pos (show 0 < s.tick.sp.val from hsp)]; rfl
  · rw [dif_neg hsp, dif_neg (show ¬ 0 < s.tick.sp.val from hsp)]

theorem pushReturn_tick (a : Word) : (pushReturn a s.tick).1 = (pushReturn a s).1.tick := by
  unfold pushReturn
  by_cases hsp : s.sp.val < 16
  · rw [dif_pos hsp, dif_pos (show s.tick.sp.val < 16 from hsp)]; rfl
  · rw [dif_neg hsp, dif_neg (show ¬ s.tick.sp.val < 16 from hsp)]

theorem skipIf_tick (c : Bool) : s.tick.skipIf c = (s.skipIf c).tick := by
  cases c <;> rfl

theorem loadSeq_tick (f : Nat → Byte) (n : Nat) : State.loadSeq f n s.tick = (State.loadSeq f n s).tick := by
  induction n with
  | zero => rfl
  | succ n ih =>
    rw [State.loadSeq, State.loadSeq, ih]
    unfold State.setRegAt
    split <;> rfl

end

section
variable {s t : State}

theorem execLdVxK_tick {x : RegIdx} (h : execLdVxK x s = .next t) : execLdVxK x s.tick = .next t.tick := by
  have hkey : lowestKey s.tick = lowestKey s := rfl
  unfold execLdVxK at h ⊢
  rw [hkey]
  cases hk : lowestKey s <;> rw [hk] at h <;> cases h <;> rfl

/-- An instruction that copies no timer commutes with a tick: it neither reads nor writes what the tick writes. -/
theorem exec_tick {i : Instr} (hi : isTimerCopy i = false) (h : exec i s = .next t) : exec i s.tick = .next t.tick := by
  cases i with
  | ldVxDt | ldDtVx | ldStVx => cases hi
  | ret => cases h; exact congrArg _ (popReturn_tick s)
  | call nnn => cases h; exact congrArg (fun u : State => Host.Outcome.next (u.setPc (addrOperand nnn))) (pushReturn_tick s s.pc)
  | seImm | sneImm | seReg | sneReg => cases h; exact congrArg _ (skipIf_tick s _)
  | ldVxK => exact execLdVxK_tick h
  | skp => obtain ⟨hin, rfl⟩ := exec_skp_eq_next_iff.mp h; exact exec_skp_eq_next_iff.mpr ⟨hin, rfl⟩
  | sknp => obtain ⟨hin, rfl⟩ := exec_sknp_eq_next_iff.mp h; exact exec_sknp_eq_next_iff.mpr ⟨hin, rfl⟩
  | drw => obtain ⟨hin, rfl⟩ := exec_drw_eq_next_iff.mp h; exact exec_drw_eq_next_iff.mpr ⟨hin, rfl⟩
  | ldB => obtain ⟨hin, rfl⟩ := exec_ldB_eq_next_iff.mp h; exact exec_ldB_eq_next_iff.mpr ⟨hin, rfl⟩
  | stRegs => obtain ⟨hin, rfl⟩ := exec_stRegs_eq_next_iff.mp h; exact exec_stRegs_eq_next_iff.mpr ⟨hin, rfl⟩
  | ldRegs =>
    obtain ⟨hin, rfl⟩ := exec_ldRegs_eq_next_iff.mp h
    exact exec_ldRegs_eq_next_iff.mpr ⟨hin, (loadSeq_tick s _ _).symm⟩
  | _ => cases h; rfl

end

theorem tick_frame (s : State) : SameBut (fun p => p = .delayTimer ∨ p = .soundTimer) s s.tick :=
  (setDelayTimer_frame s _).trans_or (setSoundTimer_frame _ _)

end Sys2Proof.Machine

namespace Sys2Proof.Proofs
open Sys2Proof.Machine

/-- Settles O20: the fetch does not see a tick, and the fetched instruction, no timer copy, commutes with it (R224, R228). -/
theorem tickCommutes : Obligations.TickCommutes := by
  unfold Obligations.TickCommutes
  intro s t h hno
  obtain ⟨hpc, ⟨i, hd, he⟩ | ⟨e, hd, rfl⟩⟩ := step_next h
  · have hi : isTimerCopy i = false := by
      cases i with
      | ldVxDt x => exact absurd hd (hno x).1
      | ldDtVx x => exact absurd hd (hno x).2.1
      | ldStVx x => exact absurd hd (hno x).2.2
      | _ => rfl
    rw [step_of_decode_ok (s := s.tick) hpc hd]
    exact exec_tick hi he
  · exact step_of_decode_error (s := s.tick) hpc hd

/-- Settles O56: a tick is one write of each timer, with its own value less 1 (R224). -/
theorem tick : Obligations.Tick := by
  unfold Obligations.Tick
  exact fun s => ⟨timerTick_toNat s.delayTimer, timerTick_toNat s.soundTimer, tick_frame s⟩

end Sys2Proof.Proofs
end

section
/-!
SUPPORT. The faults of R214: `exec` by what the table `raises` says, which the advance of `pc` does not change; so an outcome of a
step is a next state, the fault of its fetch or the fault its instruction raises.
-/
namespace Sys2Proof.Machine

/-- The outcome is a next state where the table raises nothing, and the fault where it raises one. -/
def FaultsAs (r : Option Fault) (o : Host.Outcome State Fault Refusal) : Prop :=
  (r = none → ∃ t, o = .next t) ∧ ∀ f, r = some f → o = .fault f

/-- One condition decides both the table's entry and the outcome. -/
theorem FaultsAs.of_ite {o : Host.Outcome State Fault Refusal} {c : Prop} [Decidable c] {f : Fault} {t : State}
    (ho : o = if c then .fault f else .next t) : FaultsAs (if c then some f else none) o := by
  subst ho
  split_ifs
  · exact ⟨nofun, fun g hg => by cases hg; rfl⟩
  · exact ⟨fun _ => ⟨t, rfl⟩, nofun⟩

theorem exec_faultsAs_raises (i : Instr) (s : State) : FaultsAs (raises i s) (exec i s) := by
  cases i with
  | drw x y n => exact .of_ite (execDrw_eq x y n s)
  | ldB x => exact .of_ite (execLdB_eq x s)
  | stRegs x => exact .of_ite (execStRegs_eq x s)
  | ldRegs x => exact .of_ite (execLdRegs_eq x s)
  | skp x => exact .of_ite (exec_skp_eq x s)
  | sknp x => exact .of_ite (exec_sknp_eq x s)
  | ldVxK x =>
    refine ⟨fun _ => ?_, nofun⟩
    rcases execLdVxK_cases x s with ⟨-, he⟩ | ⟨-, k, -, he⟩ <;> exact ⟨_, he⟩
  | _ => exact ⟨fun _ => ⟨_, rfl⟩, nofun⟩

theorem exec_of_raises_none {i : Instr} {s : State} (h : raises i s = none) : ∃ t, exec i s = .next t :=
  (exec_faultsAs_raises i s).1 h

theorem exec_of_raises_some {i : Instr} {s : State} {f : Fault} (h : raises i s = some f) : exec i s = .fault f :=
  (exec_faultsAs_raises i s).2 f h

theorem exec_eq_fault_iff {i : Instr} {s : State} {f : Fault} : exec i s = .fault f ↔ raises i s = some f := by
  cases hr : raises i s with
  | none =>
    obtain ⟨t, ht⟩ := exec_of_raises_none hr
    simp [ht]
  | some g => simp [exec_of_raises_some hr]

theorem exec_ne_refused (i : Instr) (s : State) (r : Refusal) : exec i s ≠ .refused r := by
  cases hr : raises i s with
  | none =>
    obtain ⟨t, ht⟩ := exec_of_raises_none hr
    simp [ht]
  | some f => simp [exec_of_raises_some hr]

theorem raises_advance (i : Instr) (s : State) : raises i s.advance = raises i s := by
  cases i <;> rfl

theorem step_of_pc_gt {s : State} (h : 4094 < s.pc.toNat) : step s = .fault (.fetchAddress s.pc) := by
  rw [step_eq, if_pos h]

end Sys2Proof.Machine

namespace Sys2Proof.Proofs
open Sys2Proof.Machine

/-- Settles O7: the fetch faults, the instruction has its meaning, or the word completes as unrecognized (R90, R98, R103). -/
theorem stepNeverRefuses : Obligations.StepNeverRefuses := by
  unfold Obligations.StepNeverRefuses
  intro s r
  by_cases hpc : s.pc.toNat ≤ 4094
  · cases hd : decode (Memory.readWord s.mem s.pc.toNat) with
    | ok i => rw [step_of_decode_ok hpc hd]; exact exec_ne_refused i _ r
    | error e => rw [step_of_decode_error hpc hd]; exact nofun
  · rw [step_of_pc_gt (not_le.mp hpc)]
    exact nofun

/-- Settles O8: the outcome of every instruction by its entry in R214's table. -/
theorem execFaultsExactly : Obligations.ExecFaultsExactly := by
  unfold Obligations.ExecFaultsExactly
  exact exec_faultsAs_raises

/-- Settles O9: the fetch comes first, then what the instruction raises, which the advanced `pc` does not change (R214). -/
theorem stepFaultsExactly : Obligations.StepFaultsExactly := by
  unfold Obligations.StepFaultsExactly
  intro s f
  by_cases hpc : s.pc.toNat ≤ 4094
  · have hin : ¬ 4094 < s.pc.toNat := by omega
    cases hd : decode (Memory.readWord s.mem s.pc.toNat) with
    | ok i =>
      rw [step_of_decode_ok hpc hd, exec_eq_fault_iff, raises_advance]
      simp [hpc, hin]
    | error e => simp [step_of_decode_error hpc hd, hin]
  · have hout : 4094 < s.pc.toNat := by omega
    simp [step_of_pc_gt hout, hout, hpc, eq_comm]

end Sys2Proof.Proofs
end

section
/-!
SUPPORT. The words that no pattern matches, group by group of the decoder, against R98's table of numbers.
-/
namespace Sys2Proof

section
variable (w : Word)

theorem fieldNN_eq_iff (b : Byte) : fieldNN w = b ↔ w.toNat % 256 = b.toNat := by
  rw [← BitVec.toNat_inj, fieldNN_toNat]

theorem fieldN_eq_zero_iff : fieldN w = 0 ↔ w.toNat % 16 = 0 := by
  rw [← BitVec.toNat_inj, fieldN_toNat]; rfl

theorem decodeGroup0_error_iff : (∃ e, decodeGroup0 w = .error e) ↔ w.toNat ≠ 0x00E0 ∧ w.toNat ≠ 0x00EE := by
  simp only [decodeGroup0, ← BitVec.toNat_inj, BitVec.reduceToNat]
  split_ifs <;> simp_all

theorem decodeGroup8_error_iff : (∃ e, decodeGroup8 w = .error e) ↔ 8 ≤ w.toNat % 16 ∧ w.toNat % 16 ≠ 0xE := by
  simp only [decodeGroup8, fieldN_toNat]
  split
  case h_10 =>
    simp only [imp_false] at *
    simp only [Except.error.injEq, exists_eq', true_iff]
    omega
  all_goals simp [*]

theorem decodeGroupE_error_iff : (∃ e, decodeGroupE w = .error e) ↔ w.toNat % 256 ∉ [0x9E, 0xA1] := by
  simp only [decodeGroupE, fieldNN_eq_iff, BitVec.reduceToNat]
  split_ifs <;> simp_all

theorem decodeGroupF_error_iff : (∃ e, decodeGroupF w = .error e) ↔
    w.toNat % 256 ∉ [0x07, 0x0A, 0x15, 0x18, 0x1E, 0x29, 0x33, 0x55, 0x65] := by
  simp only [decodeGroupF, fieldNN_eq_iff, BitVec.reduceToNat]
  split_ifs <;> simp_all

theorem decode_error_iff : (∃ e, decode w = .error e) ↔
    (w.toNat / 4096 = 0x0 ∧ w.toNat ≠ 0x00E0 ∧ w.toNat ≠ 0x00EE) ∨
    (w.toNat / 4096 = 0x5 ∧ w.toNat % 16 ≠ 0) ∨
    (w.toNat / 4096 = 0x8 ∧ 8 ≤ w.toNat % 16 ∧ w.toNat % 16 ≠ 0xE) ∨
    (w.toNat / 4096 = 0x9 ∧ w.toNat % 16 ≠ 0) ∨
    (w.toNat / 4096 = 0xE ∧ w.toNat % 256 ∉ [0x9E, 0xA1]) ∨
    (w.toNat / 4096 = 0xF ∧ w.toNat % 256 ∉ [0x07, 0x0A, 0x15, 0x18, 0x1E, 0x29, 0x33, 0x55, 0x65]) := by
  have := w.isLt
  simp only [decode, digit3_toNat, fieldN_eq_zero_iff]
  split
  case h_1 h => simp only [decodeGroup0_error_iff, h]; simp
  case h_6 h => split_ifs <;> simp [*]
  case h_9 h => simp only [decodeGroup8_error_iff, h]; simp
  case h_10 h => split_ifs <;> simp [*]
  case h_15 h => simp only [decodeGroupE_error_iff, h]; simp
  case h_16 =>
    have h : w.toNat / 4096 = 0xF := by simp only [imp_false] at *; omega
    simp only [decodeGroupF_error_iff, h]; simp
  all_goals simp [*]

end

end Sys2Proof

namespace Sys2Proof.Machine

/-! ### The report of a step by the word it fetches (R210, R212) -/

section
variable (i : Instr) (s : State)

theorem report_eq_stackOverflow_iff : report i s = some .stackOverflow ↔ s.sp.val = 16 ∧ ∃ nnn, i = .call nnn := by
  have := s.sp.isLt
  cases i with
  | call nnn =>
    rw [report_call_eq]
    split_ifs <;> simp <;> omega
  | ret =>
    rw [report_ret_eq]
    split_ifs <;> simp
  | _ => simp [report]

theorem report_eq_stackUnderflow_iff : report i s = some .stackUnderflow ↔ s.sp.val = 0 ∧ i = .ret := by
  cases i with
  | call nnn =>
    rw [report_call_eq]
    split_ifs <;> simp
  | ret =>
    rw [report_ret_eq]
    split_ifs <;> simp <;> omega
  | _ => simp [report]

theorem report_ne_unknownOpcode : report i s ≠ some .unknownOpcode := by
  cases i with
  | call nnn =>
    rw [report_call_eq]
    split_ifs <;> simp
  | ret =>
    rw [report_ret_eq]
    split_ifs <;> simp
  | _ => simp [report]

end

section
variable {s : State}

theorem stepReport_of_pc_gt (h : 4094 < s.pc.toNat) : stepReport s = none := by
  rw [stepReport, fetch_eq, if_pos h]

theorem stepReport_of_decode_ok (hpc : s.pc.toNat ≤ 4094) {i : Instr}
    (hd : decode (Memory.readWord s.mem s.pc.toNat) = .ok i) : stepReport s = report i s.advance := by
  simp only [stepReport, fetch_of_le hpc, hd]

theorem stepReport_eq_some_iff {r : Report} : stepReport s = some r ↔ s.pc.toNat ≤ 4094 ∧
    ((∃ i, decode (Memory.readWord s.mem s.pc.toNat) = .ok i ∧ report i s.advance = some r) ∨
      ((∃ e, decode (Memory.readWord s.mem s.pc.toNat) = .error e) ∧ .unknownOpcode = r)) := by
  by_cases hpc : s.pc.toNat ≤ 4094
  · cases hd : decode (Memory.readWord s.mem s.pc.toNat) with
    | ok i => rw [stepReport_of_decode_ok hpc hd]; simp [hpc]
    | error e => rw [stepReport_of_decode_error hpc hd]; simp [hpc]
  · simp [stepReport_of_pc_gt (not_le.mp hpc), hpc]

theorem stepReport_eq_stackOverflow_iff : stepReport s = some .stackOverflow ↔ s.pc.toNat ≤ 4094 ∧ s.sp.val = 16 ∧
    ∃ nnn, decode (Memory.readWord s.mem s.pc.toNat) = .ok (.call nnn) := by
  rw [stepReport_eq_some_iff]
  simp only [report_eq_stackOverflow_iff, State.advance_eq, State.setPc_sp]
  constructor
  · rintro ⟨hpc, ⟨i, hd, hsp, nnn, rfl⟩ | ⟨-, hr⟩⟩
    · exact ⟨hpc, hsp, nnn, hd⟩
    · cases hr
  · rintro ⟨hpc, hsp, nnn, hd⟩
    exact ⟨hpc, .inl ⟨_, hd, hsp, nnn, rfl⟩⟩

theorem stepReport_eq_stackUnderflow_iff : stepReport s = some .stackUnderflow ↔ s.pc.toNat ≤ 4094 ∧ s.sp.val = 0 ∧
    decode (Memory.readWord s.mem s.pc.toNat) = .ok .ret := by
  rw [stepReport_eq_some_iff]
  simp only [report_eq_stackUnderflow_iff, State.advance_eq, State.setPc_sp]
  constructor
  · rintro ⟨hpc, ⟨i, hd, hsp, rfl⟩ | ⟨-, hr⟩⟩
    · exact ⟨hpc, hsp, hd⟩
    · cases hr
  · rintro ⟨hpc, hsp, hd⟩
    exact ⟨hpc, .inl ⟨_, hd, hsp, rfl⟩⟩

theorem stepReport_eq_unknownOpcode_iff : stepReport s = some .unknownOpcode ↔ s.pc.toNat ≤ 4094 ∧
    ∃ e, decode (Memory.readWord s.mem s.pc.toNat) = .error e := by
  rw [stepReport_eq_some_iff]
  simp [report_ne_unknownOpcode]

theorem exec_call_of_sp_full (h : s.sp.val = 16) (nnn : Addr12) :
    exec (.call nnn) s = .next (s.setPc (addrOperand nnn)) := by
  rcases execCall_cases nnn s with ⟨hroom, -, -⟩ | ⟨-, -, he⟩
  · omega
  · exact he

/-- A 00EE on an empty stack and an unrecognized word only advance `pc` (R98, R120). -/
theorem step_of_underflow_or_unknown (h : stepReport s = some .stackUnderflow ∨ stepReport s = some .unknownOpcode) :
    s.pc.toNat ≤ 4094 ∧ step s = .next s.advance := by
  rcases h with h | h
  · obtain ⟨hpc, hsp, hd⟩ := stepReport_eq_stackUnderflow_iff.mp h
    exact ⟨hpc, (step_of_decode_ok hpc hd).trans (exec_ret_of_sp_eq_zero (s := s.advance) hsp)⟩
  · obtain ⟨hpc, e, hd⟩ := stepReport_eq_unknownOpcode_iff.mp h
    exact ⟨hpc, step_of_decode_error hpc hd⟩

theorem stepReported_of_step {t : State} (h : step s = .next t) : stepReported s = .next (t, stepReport s) := by
  rw [stepReported, h]

end

end Sys2Proof.Machine

namespace Sys2Proof.Proofs
open Sys2Proof.Machine

/-- Settles O3: the decoder rejects a word in the groups of R98's table, and the step on such a word advances `pc` (D17). -/
theorem unrecognizedWords : Obligations.UnrecognizedWords := by
  unfold Obligations.UnrecognizedWords
  refine ⟨decode_error_iff, fun s e hpc hd => ?_⟩
  rw [stepReported_of_step (step_of_decode_error hpc hd), stepReport_of_decode_error hpc hd]
  rfl

/-- Settles O10: each report by the word fetched and the count of stack entries in use, with the state that goes with it. -/
theorem stepReportsExactly : Obligations.StepReportsExactly := by
  unfold Obligations.StepReportsExactly
  intro s
  refine ⟨stepReport_eq_stackOverflow_iff, stepReport_eq_stackUnderflow_iff, stepReport_eq_unknownOpcode_iff,
    fun h nnn hd => ?_, fun h => ?_⟩
  · obtain ⟨hpc, hfull, -⟩ := stepReport_eq_stackOverflow_iff.mp h
    refine ⟨s.advance.setPc (addrOperand nnn), ?_, addrOperand_toNat nnn, setPc_frame s _⟩
    rw [step_of_decode_ok hpc hd]
    exact exec_call_of_sp_full (s := s.advance) hfull nnn
  · obtain ⟨hpc, hstep⟩ := step_of_underflow_or_unknown h
    exact ⟨_, hstep, advance_toNat hpc, setPc_frame s _⟩

end Sys2Proof.Proofs
end

section
/-!
SUPPORT. The open policies (R8). Where an access is inside memory and a byte numbers a key, `fault` and its alternatives say the
same, so an instruction with a next state has it under every policy; and what the alternatives say outside (R78, R193).
-/
namespace Sys2Proof.Machine

/-! ### Accesses inside memory are the same under every policy (R67, R78) -/

theorem byteAddr_of_lt (o : OorPolicy) {a : Nat} (h : a < 4096) : byteAddr o a = a := by
  cases o with
  | fault => rfl
  | wrap => exact Nat.mod_eq_of_lt h

theorem rangeFault_of_in_range (o : OorPolicy) {base : Word} {n : Nat} (h : ¬ (0 < n ∧ 4096 < base.toNat + n)) :
    rangeFault o base n = none := by
  cases o with
  | fault => rw [rangeFault_eq, if_neg h]
  | wrap => rfl

theorem storeSeq_policy (o : OorPolicy) {base n : Nat} (h : base + n ≤ 4096) (f : Nat → Byte) (m : Memory) :
    storeSeq o base f n m = storeSeq .fault base f n m := by
  induction n with
  | zero => rfl
  | succ n ih => rw [storeSeq, storeSeq, ih (by omega), byteAddr_of_lt o (by omega), byteAddr_fault]

theorem loadByte_of_lt (o : OorPolicy) (m : Memory) {base k : Nat} (h : base + k < 4096) :
    loadByte o m base k = Memory.read m (base + k) := by
  rw [loadByte, byteAddr_of_lt o h]

theorem loadSeq_congr {f g : Nat → Byte} {n : Nat} (h : ∀ k < n, f k = g k) (s : State) :
    State.loadSeq f n s = State.loadSeq g n s := by
  induction n with
  | zero => rfl
  | succ n ih => rw [State.loadSeq, State.loadSeq, ih fun k hk => h k (by omega), h n (by omega)]

theorem drawLines_congr {f g : Nat → Byte} {n : Nat} (h : ∀ k < n, f k = g k) (cx cy : Byte) (a : Drawing) :
    drawLines f cx cy n a = drawLines g cx cy n a := by
  induction n with
  | zero => rfl
  | succ n ih => rw [drawLines, drawLines, ih fun k hk => h k (by omega), h n (by omega)]

theorem fetchWith_of_le (o : OorPolicy) {s : State} (hpc : s.pc.toNat ≤ 4094) :
    fetchWith o s = .ok (Memory.readWord s.mem s.pc.toNat) := by
  cases o with
  | fault => exact fetch_of_le hpc
  | wrap =>
    have hhi : s.pc.toNat < Config.memSize := Nat.lt_of_le_of_lt hpc (by decide)
    have hlo : s.pc.toNat + 1 < Config.memSize := Nat.lt_of_le_of_lt (Nat.succ_le_succ hpc) (by decide)
    rw [fetchWith, Nat.mod_eq_of_lt hhi, Nat.mod_eq_of_lt hlo, Memory.readWord]

/-! ### The key a byte names, under each policy (R193) -/

section
variable {s : State} {b : Byte} {k : Fin 16}

theorem keyOperand_of_key (p : KeyIndexPolicy) (hk : b.toNat = k.val) : keyOperand p s b = .ok (s.isPressed k) := by
  unfold keyOperand
  rw [dif_pos (by omega)]
  simp only [State.isPressed, hk]

theorem keyOperand_mask_of_gt (hgt : 15 < b.toNat) (hk : b.toNat % 16 = k.val) :
    keyOperand .mask s b = .ok (s.isPressed k) := by
  rw [keyOperand, dif_neg (by omega)]
  simp only [State.isPressed, hk]

theorem keyOperand_released_of_gt (hgt : 15 < b.toNat) : keyOperand .released s b = .ok false :=
  dif_neg (by omega)

theorem skipOnKey_of_ok {p : KeyIndexPolicy} {x : RegIdx} {down : Bool} (h : keyOperand p s (s.reg x) = .ok down)
    (level : Bool) : skipOnKey p level x s = .next (if down = level then s.setPc (s.pc + 2) else s) := by
  rw [skipOnKey, h]
  cases down <;> cases level <;> rfl

end

/-- A keypad skip has a next state, or it is the fault of a byte above 15 under the policy `fault`. -/
theorem skipOnKey_outcome (p : KeyIndexPolicy) (level : Bool) (x : RegIdx) (s : State) :
    (∃ t, skipOnKey p level x s = .next t) ∨
      (p = .fault ∧ ∃ b : Byte, 15 < b.toNat ∧ skipOnKey p level x s = .fault (.keyIndex b)) := by
  rcases eq_key_or_gt (s.reg x) with ⟨k, hk⟩ | hgt
  · exact .inl ⟨_, skipOnKey_of_ok (keyOperand_of_key p hk) level⟩
  · cases p with
    | fault =>
      refine .inr ⟨rfl, _, hgt, ?_⟩
      rw [skipOnKey, keyOperand_fault, dif_neg (by omega)]
    | mask => exact .inl ⟨_, skipOnKey_of_ok (keyOperand_mask_of_gt (k := ⟨_, Nat.mod_lt _ (by decide)⟩) hgt rfl) level⟩
    | released => exact .inl ⟨_, skipOnKey_of_ok (keyOperand_released_of_gt hgt) level⟩

theorem skipOnKey_policy {p : KeyIndexPolicy} {level : Bool} {x : RegIdx} {s t : State}
    (h : skipOnKey .fault level x s = .next t) : skipOnKey p level x s = .next t := by
  rcases eq_key_or_gt (s.reg x) with ⟨k, hk⟩ | hgt
  · rw [← h, skipOnKey_of_ok (keyOperand_of_key p hk), skipOnKey_of_ok (keyOperand_of_key .fault hk)]
  · rw [skipOnKey, keyOperand_fault, dif_neg (by omega)] at h
    cases h

/-! ### An instruction under any policies -/

theorem execWith_of_exec_next {p : Policies} {i : Instr} {s t : State} (hi : ∀ x nn, i ≠ .rnd x nn) (r : Byte)
    (h : exec i s = .next t) : execWith p r i s = .next t := by
  cases i with
  | rnd x nn => exact absurd rfl (hi x nn)
  | drw x y n =>
    obtain ⟨hin, rfl⟩ := exec_drw_eq_next_iff.mp h
    rw [execWith, drawSprite, rangeFault_of_in_range p.oor hin]
    dsimp only
    rw [drawLines_congr fun k hk => loadByte_of_lt p.oor s.mem (by omega)]
    rfl
  | ldB x =>
    obtain ⟨hin, rfl⟩ := exec_ldB_eq_next_iff.mp h
    rw [execWith, storeDigits, rangeFault_of_in_range p.oor (by omega)]
    dsimp only
    rw [storeSeq_policy p.oor (by omega)]
  | stRegs x =>
    obtain ⟨hin, rfl⟩ := exec_stRegs_eq_next_iff.mp h
    rw [execWith, storeRegs, regCount, rangeFault_of_in_range p.oor (by omega)]
    dsimp only
    rw [storeSeq_policy p.oor (by omega)]
  | ldRegs x =>
    obtain ⟨hin, rfl⟩ := exec_ldRegs_eq_next_iff.mp h
    rw [execWith, loadRegs, regCount, rangeFault_of_in_range p.oor (by omega)]
    exact congrArg _ (loadSeq_congr (fun k hk => loadByte_of_lt p.oor s.mem (by omega)) s)
  | skp | sknp => exact skipOnKey_policy h
  | _ => exact h

/-- Under `wrap` an instruction has a next state, or it is a keypad skip that faults under its own policy. -/
theorem execWith_wrap_outcome (k : KeyIndexPolicy) (r : Byte) (i : Instr) (s : State) :
    (∃ t, execWith ⟨.wrap, k⟩ r i s = .next t) ∨
      (k = .fault ∧ ∃ b : Byte, 15 < b.toNat ∧ execWith ⟨.wrap, k⟩ r i s = .fault (.keyIndex b)) := by
  cases i with
  | skp x => exact skipOnKey_outcome k true x s
  | sknp x => exact skipOnKey_outcome k false x s
  | ldVxK x => rcases execLdVxK_cases x s with ⟨-, he⟩ | ⟨-, _, -, he⟩ <;> exact .inl ⟨_, he⟩
  | _ => exact .inl ⟨_, rfl⟩

theorem raises_setDraws (i : Instr) (s : State) (n : Nat) : raises i (s.setDraws n) = raises i s := by
  cases i <;> rfl

/-- Without its supply of draws and given the byte that it draws, an instruction does the same to the hardware. -/
theorem execWith_drawn {p : Policies} {i : Instr} {s t : State} (h : exec i s = .next t) :
    ∃ t', execWith p (Config.drawByte s.draws) i (s.setDraws 0) = .next t' ∧ t'.toCpuState = t.toCpuState := by
  by_cases hi : ∃ x nn, i = .rnd x nn
  · obtain ⟨x, nn, rfl⟩ := hi
    cases h
    exact ⟨_, rfl, rfl⟩
  · have hrnd : ∀ x nn, i ≠ .rnd x nn := fun x nn heq => hi ⟨x, nn, heq⟩
    have hunseen : (otherDraws 0).Unseen i s := by
      cases i with
      | rnd x nn => exact absurd rfl (hrnd x nn)
      | _ => simp [Change.Unseen, otherDraws]
    obtain ⟨t', ht', hlink⟩ := (exec_change hunseen).next h
    exact ⟨t', execWith_of_exec_next hrnd _ ht', hlink ▸ rfl⟩

/-! ### The spec's step by what it fetches -/

section
variable {p : Policies} {s : State} {w : Word}

theorem stepWith_of_decode_ok {i : Instr} (hw : fetchWith p.oor s = .ok w) (hd : decode w = .ok i) (r : Byte) :
    stepWith p r s = withReport (report i s.advance) (execWith p r i s.advance) := by
  simp only [stepWith, hw, hd]

theorem stepWith_of_decode_error {e : DecodeReject} (hw : fetchWith p.oor s = .ok w) (hd : decode w = .error e) (r : Byte) :
    stepWith p r s = .next (s.advance, some .unknownOpcode) := by
  simp only [stepWith, hw, hd]
  rfl

theorem cpuStep_of_next {r : Byte} {t : State} {m : Option Report} (h : stepWith p r (s.setDraws 0) = .next (t, m)) :
    s.toCpuState.step p r = .next (t.toCpuState, m) := by
  rw [CpuState.step, State.toCpuState_toState, h]

theorem cpuStep_of_fault {r : Byte} {f : Fault} (h : stepWith p r (s.setDraws 0) = .fault f) :
    s.toCpuState.step p r = .fault f := by
  rw [CpuState.step, State.toCpuState_toState, h]

/-- Where `step` has a next state the spec's step has it under every policy, given the byte drawn (R36). -/
theorem cpuStep_of_step_next {t : State} (p : Policies) (h : step s = .next t) :
    s.toCpuState.step p (Config.drawByte s.draws) = .next (t.toCpuState, stepReport s) := by
  obtain ⟨hpc, ⟨i, hd, he⟩ | ⟨e, hd, rfl⟩⟩ := step_next h
  · have hw := fetchWith_of_le p.oor (s := s.setDraws 0) hpc
    obtain ⟨t', ht', hcpu⟩ := execWith_drawn (p := p) he
    rw [stepReport_of_decode_ok hpc hd, ← hcpu]
    refine cpuStep_of_next ((stepWith_of_decode_ok hw hd _).trans ?_)
    have hexec : execWith p (Config.drawByte s.draws) i (s.setDraws 0).advance = .next t' := ht'
    rw [hexec, report_congr_sp (s := s.advance) (s' := (s.setDraws 0).advance) i rfl, withReport]
  · have hw := fetchWith_of_le p.oor (s := s.setDraws 0) hpc
    rw [stepReport_of_decode_error hpc hd]
    exact cpuStep_of_next (t := (s.setDraws 0).advance) (stepWith_of_decode_error hw hd _)

theorem stepWith_default_of_raises {i : Instr} {f : Fault} (hpc : s.pc.toNat ≤ 4094)
    (hd : decode (Memory.readWord s.mem s.pc.toNat) = .ok i) (hf : raises i s = some f) (r : Byte) :
    stepWith defaultPolicies r s = .fault f := by
  have hrnd : ∀ x nn, i ≠ .rnd x nn := by
    rintro x nn rfl
    cases hf
  rw [stepWith_of_decode_ok (fetchWith_of_le _ hpc) hd, execWith_default r i _ hrnd,
    exec_of_raises_some ((raises_advance i s).trans hf), withReport]

theorem stepWith_default_of_pc_gt (hpc : 4094 < s.pc.toNat) (r : Byte) :
    stepWith defaultPolicies r s = .fault (.fetchAddress s.pc) := by
  have hw : fetchWith defaultPolicies.oor s = .error (.fetchAddress s.pc) := if_pos hpc
  rw [stepWith, hw]

end

/-- Under `wrap` a step runs what it fetched and has a next state, or it faults as a keypad skip may (R78). -/
theorem stepWith_wrap_outcome (k : KeyIndexPolicy) (r : Byte) (s : State) :
    (∃ t, stepWith ⟨.wrap, k⟩ r s = .next t) ∨
      (k = .fault ∧ ∃ b : Byte, 15 < b.toNat ∧ stepWith ⟨.wrap, k⟩ r s = .fault (.keyIndex b)) := by
  obtain ⟨w, hw⟩ : ∃ w, fetchWith .wrap s = .ok w := ⟨_, rfl⟩
  cases hd : decode w with
  | error e => exact .inl ⟨_, stepWith_of_decode_error (p := ⟨.wrap, k⟩) hw hd r⟩
  | ok i =>
    rw [stepWith_of_decode_ok (p := ⟨.wrap, k⟩) hw hd r]
    rcases execWith_wrap_outcome k r i s.advance with ⟨t, ht⟩ | ⟨hk, b, hb, hf⟩
    · exact .inl ⟨_, by rw [ht, withReport]⟩
    · exact .inr ⟨hk, b, hb, by rw [hf, withReport]⟩

end Sys2Proof.Machine

namespace Sys2Proof.Proofs
open Sys2Proof.Machine

/-- Settles O21: a next state was reached inside memory and with a key number, where every policy agrees; a fault is the
fetch's or what the instruction raises, and no Cxnn raises one (R66, R67, R193, R214). -/
theorem policiesDecideOnlyFaults : Obligations.PoliciesDecideOnlyFaults := by
  unfold Obligations.PoliciesDecideOnlyFaults
  refine fun s => ⟨fun p t h => cpuStep_of_step_next p h, fun r f h => cpuStep_of_fault ?_⟩
  rcases (stepFaultsExactly s f).mp h with ⟨hpc, rfl⟩ | ⟨hpc, i, hd, hf⟩
  · exact stepWith_default_of_pc_gt (s := s.setDraws 0) hpc r
  · exact stepWith_default_of_raises (s := s.setDraws 0) hpc hd ((raises_setDraws i s 0).trans hf) r

/-- Settles O22: under `wrap` neither the fetch nor an access is checked, so only a keypad skip can fault (R78, R193). -/
theorem wrapHasNoAddressFault : Obligations.WrapHasNoAddressFault := by
  unfold Obligations.WrapHasNoAddressFault
  intro k r s
  refine ⟨fun f h => ?_, fun e h => ?_, ?_⟩
  · rcases stepWith_wrap_outcome k r s with ⟨t, ht⟩ | ⟨hk, b, hb, hf⟩
    · cases ht.symm.trans h
    · cases hf.symm.trans h
      exact ⟨hk, b, hb, rfl⟩
  · rcases stepWith_wrap_outcome k r s with ⟨t, ht⟩ | ⟨-, b, -, hf⟩
    · cases ht.symm.trans h
    · cases hf.symm.trans h
  · rintro w rfl
    refine ⟨fun i t hd he => ?_, fun e hd => stepWith_of_decode_error (p := ⟨.wrap, k⟩) rfl hd r⟩
    have hexec : execWith ⟨.wrap, k⟩ r i s.advance = .next t := he
    rw [stepWith_of_decode_ok (p := ⟨.wrap, k⟩) rfl hd r, hexec]
    rfl

/-- Settles O52: above 15, `mask` names key `v[x]` modulo 16 and `released` a key that is up (R193). -/
theorem keyPolicies : Obligations.KeyPolicies := by
  unfold Obligations.KeyPolicies
  intro o r s x hgt
  refine ⟨fun k hk => ?_, skipOnKey_of_ok (keyOperand_released_of_gt hgt) true,
    skipOnKey_of_ok (keyOperand_released_of_gt hgt) false⟩
  have hkey := keyOperand_mask_of_gt (s := s) hgt hk
  refine ⟨skipOnKey_of_ok hkey true, (skipOnKey_of_ok hkey false).trans ?_⟩
  cases s.isPressed k <;> rfl

end Sys2Proof.Proofs
end

section
/-!
SUPPORT. The ALU instructions that write a flag (R154 to R158) as two register writes each, in the order of R160, with results
and flags as numbers.
-/
namespace Sys2Proof.Machine

theorem flagByte_decide_toNat (p : Prop) [Decidable p] : (flagByte (decide p)).toNat = if p then 1 else 0 := by
  by_cases h : p <;> simp [flagByte, h]

theorem carryFlag_toNat (a b : Byte) : (carryFlag a b).toNat = if 255 < a.toNat + b.toNat then 1 else 0 :=
  flagByte_decide_toNat _

theorem noBorrowFlag_toNat (a b : Byte) : (noBorrowFlag a b).toNat = if b.toNat ≤ a.toNat then 1 else 0 :=
  flagByte_decide_toNat _

theorem shiftRightFlag_toNat (a : Byte) : (shiftRightFlag a).toNat = a.toNat % 2 :=
  (BitVec.toNat_and a 1).trans (Nat.and_one_is_mod _)

theorem shiftLeftFlag_toNat (a : Byte) : (shiftLeftFlag a).toNat = a.toNat / 128 := by
  rw [shiftLeftFlag, BitVec.toNat_ushiftRight, Nat.shiftRight_eq_div_pow]

theorem byte_shr_one_toNat (a : Byte) : (a >>> 1).toNat = a.toNat / 2 := by
  rw [BitVec.toNat_ushiftRight, Nat.shiftRight_eq_div_pow]

theorem byte_shl_one_toNat (a : Byte) : (a <<< 1).toNat = a.toNat * 2 % 256 := by
  rw [BitVec.toNat_shiftLeft, Nat.shiftLeft_eq]

theorem byte_sub_toNat (a b : Byte) : (a - b).toNat = (a.toNat + 256 - b.toNat) % 256 := by
  have := b.isLt
  rw [BitVec.toNat_sub]
  congr 1
  omega

/-- A difference modulo 256 stays below the minuend exactly when nothing was borrowed (R157, D7). -/
theorem byte_sub_le_iff (a b : Byte) : (a - b).toNat ≤ a.toNat ↔ b.toNat ≤ a.toNat := by
  have := a.isLt
  have := b.isLt
  rw [byte_sub_toNat]
  omega

section
variable (x y : RegIdx) (s : State)

theorem exec_addReg : exec (.addReg x y) s =
    .next ((s.setReg x (s.reg x + s.reg y)).setReg 15 (carryFlag (s.reg x) (s.reg y))) := rfl

theorem exec_sub : exec (.sub x y) s =
    .next ((s.setReg x (s.reg x - s.reg y)).setReg 15 (noBorrowFlag (s.reg x) (s.reg y))) := rfl

theorem exec_subn : exec (.subn x y) s =
    .next ((s.setReg x (s.reg y - s.reg x)).setReg 15 (noBorrowFlag (s.reg y) (s.reg x))) := rfl

theorem exec_shr : exec (.shr x y) s = .next ((s.setReg 15 (shiftRightFlag (s.reg x))).setReg x
    ((s.setReg 15 (shiftRightFlag (s.reg x))).reg x >>> 1)) := rfl

theorem exec_shl : exec (.shl x y) s = .next ((s.setReg 15 (shiftLeftFlag (s.reg x))).setReg x
    ((s.setReg 15 (shiftLeftFlag (s.reg x))).reg x <<< 1)) := rfl

/-- The flag of 8xy7 is the same when it is found from the registers after the result is written, `y = x` included. -/
theorem noBorrowFlag_after_subn : noBorrowFlag (s.reg y) (s.reg x) =
    if ((s.setReg x (s.reg y - s.reg x)).reg x).toNat ≤ ((s.setReg x (s.reg y - s.reg x)).reg y).toNat then 1 else 0 := by
  rw [State.setReg_reg_self, State.setReg_reg]
  by_cases hyx : y = x
  · simp [hyx, noBorrowFlag, flagByte]
  · simp only [if_neg hyx, byte_sub_le_iff, noBorrowFlag, flagByte, decide_eq_true_eq]

end

section
variable {i : Instr} {s : State} {x : RegIdx} {a b : Byte}

/-- Result, then flag: the flag stands in `v[0xF]` whatever x is, the result in `v[x]` unless x is 15 (R160). -/
theorem writes_result_then_flag {r f : Nat} (h : exec i s = .next ((s.setReg x a).setReg 15 b)) (ha : a.toNat = r)
    (hb : b.toNat = f) : ∃ t, exec i s = .next t ∧ (x ≠ 15 → (t.reg x).toNat = r) ∧ (t.reg 15).toNat = f ∧
      SameBut (fun p => p = .reg x ∨ p = .reg 15) s t := by
  refine ⟨_, h, fun hx => ?_, ?_, setReg_setReg_frame s x 15 a b⟩
  · rw [State.setReg_reg_ne _ hx, State.setReg_reg_self, ha]
  · rw [State.setReg_reg_self, hb]

/-- Flag, then result: with x other than 15 both stand; with x = 15 the result of what the flag write left (R160, D9). -/
theorem writes_flag_then_result {g : Byte → Byte}
    (h : exec i s = .next ((s.setReg 15 b).setReg x (g ((s.setReg 15 b).reg x)))) : ∃ t, exec i s = .next t ∧
      (x ≠ 15 → t.reg x = g (s.reg x) ∧ t.reg 15 = b) ∧ (x = 15 → t.reg 15 = g b) ∧
      SameBut (fun p => p = .reg x ∨ p = .reg 15) s t := by
  refine ⟨_, h, fun hx => ⟨?_, ?_⟩, fun hx => ?_, (setReg_setReg_frame s 15 x b _).mono fun _ => Or.symm⟩
  · rw [State.setReg_reg_self, State.setReg_reg_ne s hx]
  · rw [State.setReg_reg_ne _ (Ne.symm hx), State.setReg_reg_self]
  · subst hx
    rw [State.setReg_reg_self, State.setReg_reg_self]

end

/-- A register that an instruction may not write is as before. -/
theorem exec_reg_of_not_mayWrite {i : Instr} {s t : State} {y : RegIdx} (h : exec i s = .next t)
    (hw : ¬ mayWrite i s (.reg y)) : t.reg y = s.reg y :=
  BitVec.eq_of_toNat_eq (exec_frame h (.reg y) hw)

/-- The collision flag of Dxyn in terms of the cells it turned off (R22, R181). -/
theorem afterDraw_flag (s : State) (x y : RegIdx) (n : Nibble) :
    (afterDraw x y n s).reg 15 = 1 ∧
        (∃ r c, Display.cell s.display r c = true ∧ Display.cell (afterDraw x y n s).display r c = false) ∨
      (afterDraw x y n s).reg 15 = 0 ∧
        (∀ r c, Display.cell s.display r c = true → Display.cell (afterDraw x y n s).display r c = true) := by
  have hflag : (afterDraw x y n s).reg 15 = flagByte (drawn x y n s).2 := State.setReg_reg_self _ _ _
  cases hcol : (drawn x y n s).2 with
  | true =>
    obtain ⟨r, c, hpix, hset⟩ := (drawn_collision s x y n).mp hcol
    exact .inl ⟨by rw [hflag, hcol]; rfl, r, c, hset, by rw [afterDraw_cell, hset, hpix]; rfl⟩
  | false =>
    refine .inr ⟨by rw [hflag, hcol]; rfl, fun r c hset => ?_⟩
    have hpix : spritePixel s x y n r c = false := by
      by_contra hpix
      exact Bool.eq_false_iff.mp hcol ((drawn_collision s x y n).mpr ⟨r, c, by simpa using hpix, hset⟩)
    rw [afterDraw_cell, hset, hpix]
    rfl

end Sys2Proof.Machine

namespace Sys2Proof.Proofs
open Sys2Proof.Machine

/-- Settles O34: the sum to `v[x]`, then its carry to `v[0xF]` (R154, D9). -/
theorem addWithCarry : Obligations.AddWithCarry := by
  unfold Obligations.AddWithCarry
  exact fun s x y => writes_result_then_flag (exec_addReg x y s) (BitVec.toNat_add _ _) (carryFlag_toNat _ _)

/-- Settles O35: the difference to `v[x]`, then the flag that nothing was borrowed to `v[0xF]` (R155, D8). -/
theorem subtract : Obligations.Subtract := by
  unfold Obligations.Subtract
  exact fun s x y => writes_result_then_flag (exec_sub x y s) (byte_sub_toNat _ _) (noBorrowFlag_toNat _ _)

/-- Settles O36: as 8xy5 with the operands exchanged, and the new `v[x]` compares with `v[y]` as the old one did (R157, D7). -/
theorem reverseSubtract : Obligations.ReverseSubtract := by
  unfold Obligations.ReverseSubtract
  refine fun s x y => ⟨writes_result_then_flag (exec_subn x y s) (byte_sub_toNat _ _) (noBorrowFlag_toNat _ _), ?_⟩
  rintro s1 rfl
  rw [exec_subn, noBorrowFlag_after_subn]

/-- Settles O37: bit 0 to `v[0xF]`, then `v[x]` halved; with x = 15 the halved byte is that bit (R156, D9). -/
theorem shiftRight : Obligations.ShiftRight := by
  unfold Obligations.ShiftRight
  intro s x y
  obtain ⟨t, ht, hother, hself, hframe⟩ := writes_flag_then_result (g := fun a => a >>> 1) (exec_shr x y s)
  refine ⟨t, ht, fun hx => ?_, fun hx => ?_, hframe⟩
  · obtain ⟨hres, hflag⟩ := hother hx
    rw [hres, hflag, byte_shr_one_toNat, shiftRightFlag_toNat]
    exact ⟨rfl, rfl⟩
  · apply BitVec.eq_of_toNat_eq
    rw [hself hx, byte_shr_one_toNat, shiftRightFlag_toNat]
    exact Nat.div_eq_of_lt (Nat.mod_lt _ Nat.two_pos)

/-- Settles O38: bit 7 to `v[0xF]`, then `v[x]` doubled; with x = 15 the doubled byte is that bit (R158, D9). -/
theorem shiftLeft : Obligations.ShiftLeft := by
  unfold Obligations.ShiftLeft
  intro s x y
  obtain ⟨t, ht, hother, hself, hframe⟩ := writes_flag_then_result (g := fun a => a <<< 1) (exec_shl x y s)
  refine ⟨t, ht, fun hx => ?_, fun hx => ?_, hframe⟩
  · obtain ⟨hres, hflag⟩ := hother hx
    rw [hres, hflag, byte_shl_one_toNat, shiftLeftFlag_toNat]
    exact ⟨rfl, rfl⟩
  · have := (s.reg 15).isLt
    rw [hself hx, byte_shl_one_toNat, shiftLeftFlag_toNat, hx]
    split_ifs <;> omega

/-- Settles O13: the six flags of R22's table, and elsewhere the frame, which names register 15 only as a destination. -/
theorem flagRegister : Obligations.FlagRegister := by
  unfold Obligations.FlagRegister
  intro i s t h
  cases i with
  | addReg x y =>
    obtain ⟨u, hu, -, hflag, -⟩ := addWithCarry s x y
    cases hu.symm.trans h
    exact hflag
  | sub x y =>
    obtain ⟨u, hu, -, hflag, -⟩ := subtract s x y
    cases hu.symm.trans h
    exact hflag
  | subn x y =>
    obtain ⟨⟨u, hu, -, hflag, -⟩, -⟩ := reverseSubtract s x y
    cases hu.symm.trans h
    exact hflag
  | shr x y =>
    obtain ⟨u, hu, hother, -⟩ := shiftRight s x y
    cases hu.symm.trans h
    exact fun hx => (hother hx).2
  | shl x y =>
    obtain ⟨u, hu, hother, -⟩ := shiftLeft s x y
    cases hu.symm.trans h
    exact fun hx => (hother hx).2
  | drw x y n =>
    obtain ⟨-, rfl⟩ := exec_drw_eq_next_iff.mp h
    exact afterDraw_flag s x y n
  | ldImm | addImm | rnd | ldVxDt | ldVxK | ldReg | orReg | andReg | xorReg =>
    exact fun hx => exec_reg_of_not_mayWrite h (by simp [mayWrite, Ne.symm hx])
  | ldRegs x =>
    refine fun hx => exec_reg_of_not_mayWrite h ?_
    rintro ⟨y, hy, hyx⟩
    cases hy
    exact hx (Fin.last_le_iff.mp hyx)
  | _ => exact exec_reg_of_not_mayWrite h (by simp [mayWrite])

end Sys2Proof.Proofs
end

section
/-!
SUPPORT. The jumps and skips as one write of `pc` each (R121, R123, R130 to R133), and a `pc` written with what it holds. The two
fixed points of the step, the jump to itself and the wait for a key, rest on the latter.
-/
namespace Sys2Proof.Machine

theorem setPc_pc_self (s : State) : s.setPc s.pc = s := rfl

theorem setPc_setPc (s : State) (a b : Word) : (s.setPc a).setPc b = s.setPc b := rfl

theorem exec_jp (nnn : Addr12) (s : State) : exec (.jp nnn) s = .next (s.setPc (addrOperand nnn)) := rfl

theorem exec_jpV0 (nnn : Addr12) (s : State) : exec (.jpV0 nnn) s = .next (s.setPc (offsetTarget s nnn)) := rfl

theorem writes_pc_alone_of_exec_eq {i : Instr} {s : State} {a : Word} (h : exec i s = .next (s.setPc a)) :
    ∃ t, exec i s = .next t ∧ t.pc = a ∧ SameBut (fun p => p = .pc) s t :=
  ⟨_, h, rfl, setPc_frame s a⟩

/-- The step that fetches a given instruction executes it. -/
theorem step_of_fetched {s : State} (hpc : s.pc.toNat ≤ 4094) {i : Instr}
    (hw : Memory.readWord s.mem s.pc.toNat = encode i) : step s = exec i s.advance :=
  step_of_decode_ok hpc (hw ▸ decode_encode i)

theorem step_jp_self {s : State} {nnn : Addr12} (hpc : s.pc.toNat ≤ 4094) (hself : s.pc.toNat = nnn.toNat)
    (hw : Memory.readWord s.mem s.pc.toNat = encode (.jp nnn)) : step s = .next s := by
  have htarget : addrOperand nnn = s.pc := BitVec.eq_of_toNat_eq ((addrOperand_toNat nnn).trans hself.symm)
  rw [step_of_fetched hpc hw, exec_jp, htarget, State.advance_eq, setPc_setPc, setPc_pc_self]

theorem step_setPc_of_gt (s : State) {a : Word} (h : 4094 < a.toNat) : step (s.setPc a) = .fault (.fetchAddress a) :=
  step_of_pc_gt (s := s.setPc a) h

/-- A taken skip at the last word of memory leads above 4094 (R27, R130). -/
theorem step_seImm_at_4094 {s : State} {x : RegIdx} (hpc : s.pc = 4094)
    (hw : Memory.readWord s.mem s.pc.toNat = encode (.seImm x (s.reg x))) : step s = .next (s.setPc 4098) := by
  have hle : s.pc.toNat ≤ 4094 := by rw [hpc]; decide
  have heq : s.advance.reg x = s.reg x := rfl
  rw [step_of_fetched hle hw, exec, execSeImm_eq, if_pos heq, State.advance_eq, setPc_setPc, State.setPc_pc, hpc]
  rfl

theorem execCall_frame_of_sp_eq {s t : State} {k : Fin 16} {nnn : Addr12} (hk : s.sp.val = k.val)
    (h : exec (.call nnn) s = .next t) : SameBut (fun p => p = .pc ∨ p = .sp ∨ p = .stackEntry k) s t := by
  refine (exec_frame h).mono ?_
  rintro p (hpc | hsp | ⟨hroom, rfl⟩)
  · exact .inl hpc
  · exact .inr (.inl hsp)
  · exact .inr (.inr (congrArg Piece.stackEntry (Fin.ext hk)))

end Sys2Proof.Machine

namespace Sys2Proof.Proofs
open Sys2Proof.Machine

/-- Settles O24: 1nnn is one write of `pc`, with the value it holds when the jump is to itself (R121). -/
theorem jump : Obligations.Jump := by
  unfold Obligations.Jump
  refine ⟨fun s nnn => ⟨decode_encode (.jp nnn), _, exec_jp nnn s, rfl, addrOperand_toNat nnn, setPc_frame s _, ?_⟩,
    fun s nnn hpc hself hw => step_jp_self hpc hself hw⟩
  rintro rfl
  exact step_setPc_of_gt s (by decide)

/-- Settles O25: with room the post-fetch `pc` is pushed, on a full stack it is reported; both times the jump follows (R122,
D10). -/
theorem call : Obligations.Call := by
  unfold Obligations.Call
  intro s nnn
  refine ⟨decode_encode (.call nnn), fun k hk => ?_, fun hfull => ?_⟩
  · have hcall := exec_call_of_sp_eq hk nnn
    exact ⟨_, hcall, by rw [report_call_eq, if_pos (by omega)], Vector.getElem_set_self _, rfl, addrOperand_toNat nnn,
      execCall_frame_of_sp_eq hk hcall⟩
  · exact ⟨_, exec_call_of_sp_full hfull nnn, by rw [report_call_eq, if_neg (by omega)], addrOperand_toNat nnn,
      setPc_frame s _⟩

/-- Settles O27: Bnnn is one write of `pc` with a sum that 16 bits hold (R123, D1). -/
theorem jumpOffset : Obligations.JumpOffset := by
  unfold Obligations.JumpOffset
  exact fun s nnn => ⟨decode_encode (.jpV0 nnn), _, exec_jpV0 nnn s, rfl, offsetTarget_toNat s nnn, setPc_frame s _⟩

/-- Settles O28: 3xnn is one write of `pc`; taken at 4094 it writes 4098, where no word can be fetched (R130, D2). -/
theorem skipIfEqualLiteral : Obligations.SkipIfEqualLiteral := by
  unfold Obligations.SkipIfEqualLiteral
  refine ⟨fun s x nn => ⟨decode_encode (.seImm x nn), rfl, writes_pc_alone_of_exec_eq (execSeImm_eq x nn s)⟩,
    fun s x h4094 hw => ?_⟩
  have hpc : s.pc = 4094 := BitVec.eq_of_toNat_eq h4094
  exact ⟨_, step_seImm_at_4094 hpc (h4094 ▸ hw), rfl, step_setPc_of_gt s (by decide)⟩

/-- Settles O29: each of the three is one write of `pc`, chosen by its condition (R131 to R133). -/
theorem otherSkips : Obligations.OtherSkips := by
  unfold Obligations.OtherSkips
  exact fun s x y nn =>
    ⟨⟨decode_encode (.sneImm x nn), rfl, writes_pc_alone_of_exec_eq (execSneImm_eq x nn s)⟩,
      ⟨decode_encode (.seReg x y), rfl, writes_pc_alone_of_exec_eq (execSeReg_eq x y s)⟩,
      decode_encode (.sneReg x y), rfl, writes_pc_alone_of_exec_eq (execSneReg_eq x y s)⟩

end Sys2Proof.Proofs
end

section
/-!
SUPPORT. Fx33, Fx55 and Fx65 in range and out of it (R173 to R175), with what each leaves in memory or in the registers; and
`withFetchWord`, which stores a word's two bytes where the next fetch reads them (R62).
-/
namespace Sys2Proof.Machine

theorem storeSeq_read_offset (base : Nat) (f : Nat → Byte) {n k : Nat} (hk : k < n) (m : Memory) :
    Memory.read (storeSeq .fault base f n m) (base + k) = f k := by
  rw [storeSeq_read, if_pos (by omega), Nat.add_sub_cancel_left]

section
variable (b : Byte)

theorem decimalDigit_hundreds : (decimalDigit b 0).toNat = b.toNat / 100 := by
  have := b.isLt
  rw [decimalDigit, BitVec.toNat_ofNat, Nat.mod_eq_of_lt (by omega)]

theorem decimalDigit_tens : (decimalDigit b 1).toNat = b.toNat / 10 % 10 := by
  rw [decimalDigit, BitVec.toNat_ofNat, Nat.mod_eq_of_lt (by omega)]

theorem decimalDigit_ones : (decimalDigit b 2).toNat = b.toNat % 10 := by
  have hdigit : decimalDigit b 2 = BitVec.ofNat 8 (b.toNat % 10) := rfl
  rw [hdigit, BitVec.toNat_ofNat, Nat.mod_eq_of_lt (by omega)]

end

section
variable {s : State} {x : RegIdx}

theorem exec_ldB_of_le (h : s.i.toNat ≤ 4093) :
    exec (.ldB x) s = .next (s.setMem (storeSeq .fault s.i.toNat (decimalDigit (s.reg x)) 3 s.mem)) :=
  exec_ldB_eq_next_iff.mpr ⟨not_lt.mpr h, rfl⟩

theorem exec_stRegs_of_le (h : s.i.toNat + x.val ≤ 4095) :
    exec (.stRegs x) s = .next ((s.setMem (storeSeq .fault s.i.toNat s.regAt (x.val + 1) s.mem)).setI
      (s.i + BitVec.ofNat 16 (x.val + 1))) :=
  exec_stRegs_eq_next_iff.mpr ⟨not_lt.mpr h, rfl⟩

theorem exec_ldRegs_of_le (h : s.i.toNat + x.val ≤ 4095) :
    exec (.ldRegs x) s = .next (State.loadSeq (fun k => Memory.read s.mem (s.i.toNat + k)) (x.val + 1) s) :=
  exec_ldRegs_eq_next_iff.mpr ⟨not_lt.mpr h, rfl⟩

theorem index_after_stRegs (h : s.i.toNat + x.val ≤ 4095) :
    (s.i + BitVec.ofNat 16 (x.val + 1)).toNat = s.i.toNat + x.val + 1 := by
  rw [BitVec.toNat_add, BitVec.toNat_ofNat]
  omega

end

/-- One store changes one byte (R65). -/
theorem setMem_write_frame (s : State) (a : Nat) (v : Byte) :
    SameBut (fun p => p = .byte a) s (s.setMem (Memory.write s.mem a v)) := by
  intro p hp
  cases p with
  | byte b => exact congrArg BitVec.toNat (Memory.read_write_ne s.mem (fun h => hp (congrArg Piece.byte h)) v)
  | _ => rfl

theorem tableWord_toNat (w : Word) : tableWord 16 w.toNat = w := by
  rw [tableWord, Nat.mod_eq_of_lt w.isLt, BitVec.ofNat_toNat, BitVec.setWidth_eq]

/-- The state with a word's two bytes stored at `pc` and after it. -/
theorem withFetchWord_eq (s : State) (w : Word) : s.withFetchWord 16 w.toNat =
    s.setMem (Memory.write (Memory.write s.mem s.pc.toNat (hiByte w)) (s.pc.toNat + 1) (loByte w)) := by
  rw [State.withFetchWord, tableWord_toNat]

theorem readWord_write_write (m : Memory) (a : Nat) (w : Word) :
    Memory.readWord (Memory.write (Memory.write m a (hiByte w)) (a + 1) (loByte w)) a = w := by
  rw [Memory.readWord, Memory.read_write_self, Memory.read_write_ne _ (by omega), Memory.read_write_self,
    wordOfBytes_bytes]

theorem withFetchWord_frame (s : State) (w : Word) :
    SameBut (fun p => p = .byte s.pc.toNat ∨ p = .byte (s.pc.toNat + 1)) s (s.withFetchWord 16 w.toNat) := by
  rw [withFetchWord_eq]
  exact (setMem_write_frame s _ _).trans_or (setMem_write_frame (s.setMem _) _ _)

end Sys2Proof.Machine

namespace Sys2Proof.Proofs
open Sys2Proof.Machine

/-- Settles O42: in range Fx33 is a sequence of three stores from `i`, its digits; above 4093 the fault (R173, D3). -/
theorem storeDecimal : Obligations.StoreDecimal := by
  unfold Obligations.StoreDecimal
  refine fun s x => ⟨fun hin => ?_, fun hout => (execLdB_eq x s).trans (if_pos hout)⟩
  have hexec := exec_ldB_of_le (x := x) hin
  refine ⟨_, hexec, ?_, ?_, ?_, exec_frame hexec⟩
  · exact (congrArg BitVec.toNat (storeSeq_read_offset s.i.toNat _ (k := 0) (by decide) s.mem)).trans (decimalDigit_hundreds _)
  · exact (congrArg BitVec.toNat (storeSeq_read_offset s.i.toNat _ (by decide) s.mem)).trans (decimalDigit_tens _)
  · exact (congrArg BitVec.toNat (storeSeq_read_offset s.i.toNat _ (by decide) s.mem)).trans (decimalDigit_ones _)

/-- Settles O43: in range Fx55 stores register `k` at `i + k` and moves `i` past the last byte; else the fault (R174, D3). -/
theorem storeRegisters : Obligations.StoreRegisters := by
  unfold Obligations.StoreRegisters
  refine fun s x => ⟨fun hin => ?_, fun hout => (execStRegs_eq x s).trans (if_pos hout)⟩
  have hexec := exec_stRegs_of_le hin
  exact ⟨_, hexec, fun k hk => execStRegs_read hexec hk, index_after_stRegs hin, exec_frame hexec⟩

/-- Settles O44: in range Fx65 loads register `k` from `i + k` and writes nothing else; else the fault (R175, D3). -/
theorem loadRegisters : Obligations.LoadRegisters := by
  unfold Obligations.LoadRegisters
  refine fun s x => ⟨fun hin => ?_, fun hout => (execLdRegs_eq x s).trans (if_pos hout)⟩
  have hexec := exec_ldRegs_of_le hin
  refine ⟨_, hexec, fun k hk => ?_, exec_frame hexec⟩
  rw [State.loadSeq_reg, if_pos (by omega)]

/-- Settles O45: the load reads, at the same addresses, the bytes the store left (R174, R175). -/
theorem storeThenLoad : Obligations.StoreThenLoad := by
  unfold Obligations.StoreThenLoad
  intro s t u x h hmem hi
  have hin : u.i.toNat + x.val ≤ 4095 := hi ▸ execStRegs_in_range h
  obtain ⟨w, hw, hload, hframe⟩ := (loadRegisters u x).1 hin
  refine ⟨w, hw, ?_, fun k hk => ?_⟩
  · rw [← hi]
    exact BitVec.eq_of_toNat_eq (hframe .i (by simp))
  · rw [hload k hk, hmem, hi, execStRegs_read h hk]

/-- Settles O6: the two bytes of the word stand where the fetch reads them, the high one first (R62). -/
theorem placedWordIsFetched : Obligations.PlacedWordIsFetched := by
  unfold Obligations.PlacedWordIsFetched
  refine fun s w hpc => ⟨?_, withFetchWord_frame s w⟩
  have hplaced : (s.withFetchWord 16 w.toNat).pc.toNat ≤ 4094 := hpc
  rw [fetch_of_le hplaced, withFetchWord_eq]
  exact congrArg _ (readWord_write_write s.mem s.pc.toNat w)

end Sys2Proof.Proofs
end

section
/-!
SUPPORT. Fx0A by the keys that are down (R192), and the timer copies as one write each (R200 to R202).
-/
namespace Sys2Proof.Machine

theorem exec_ldVxK_of_lowest {s : State} {x : RegIdx} {k : Nat} (h : lowestKey s = some k) :
    exec (.ldVxK x) s = .next (s.setReg x (BitVec.ofNat 8 k)) := by
  rw [exec, execLdVxK, h]

theorem exec_ldVxK_of_none {s : State} {x : RegIdx} (h : ∀ k, s.isPressed k = false) :
    exec (.ldVxK x) s = .next s.rewind := by
  rw [exec, execLdVxK, lowestKey_none.mpr h]

theorem advance_rewind (s : State) : s.advance.rewind = s := by
  rw [State.advance_eq, State.rewind_eq, setPc_setPc, State.setPc_pc, BitVec.add_sub_cancel, setPc_pc_self]

theorem keyNumber_toNat (k : Fin 16) : (BitVec.ofNat 8 k.val).toNat = k.val := by
  rw [BitVec.toNat_ofNat, Nat.mod_eq_of_lt (by omega)]

theorem exec_ldVxDt (x : RegIdx) (s : State) : exec (.ldVxDt x) s = .next (s.setReg x s.delayTimer) := rfl

theorem exec_ldDtVx (x : RegIdx) (s : State) : exec (.ldDtVx x) s = .next (s.setDelayTimer (s.reg x)) := rfl

theorem exec_ldStVx (x : RegIdx) (s : State) : exec (.ldStVx x) s = .next (s.setSoundTimer (s.reg x)) := rfl

theorem soundEnabled_eq_true_iff (s : State) : s.soundEnabled = true ↔ s.soundTimer ≠ 0 := by
  rw [State.soundEnabled, decide_eq_true_eq, Nat.pos_iff_ne_zero, ne_eq, ne_eq, ← BitVec.toNat_inj]
  rfl

end Sys2Proof.Machine

namespace Sys2Proof.Proofs
open Sys2Proof.Machine

/-- Settles O51: a byte up to 15 names a key, whose level chooses the one write of `pc`; above it the fault (R193, D6). -/
theorem keySkips : Obligations.KeySkips := by
  unfold Obligations.KeySkips
  exact fun s x => ⟨fun k hk => ⟨writes_pc_alone_of_exec_eq (exec_skp_of_key hk),
    writes_pc_alone_of_exec_eq (exec_sknp_of_key hk)⟩, fun hgt => ⟨exec_skp_of_gt hgt, exec_sknp_of_gt hgt⟩⟩

/-- Settles O53: the least key that is down is one write of `v[x]`; with none the rewind undoes the advance (R192, D23). -/
theorem waitForKey : Obligations.WaitForKey := by
  unfold Obligations.WaitForKey
  refine ⟨fun s x k hdown hleast => ?_, fun s x hpc hup hd => ?_⟩
  · have hlow : lowestKey s = some k.val := lowestKey_some.mpr ⟨k.isLt, hdown, hleast⟩
    refine ⟨_, exec_ldVxK_of_lowest hlow, ?_, setReg_frame s x _⟩
    rw [State.setReg_reg_self, keyNumber_toNat]
  · have hstep : step s = .next s := by
      rw [step_of_decode_ok hpc hd, exec_ldVxK_of_none (s := s.advance) hup, advance_rewind]
    rw [stepReported_of_step hstep, stepReport_of_decode_ok hpc hd]
    rfl

/-- Settles O54: each of the three is one write of the register or timer it names (R200 to R202, D15). -/
theorem timerCopies : Obligations.TimerCopies := by
  unfold Obligations.TimerCopies
  exact fun s x => ⟨writes_reg_alone_of_exec_eq (exec_ldVxDt x s),
    ⟨_, exec_ldDtVx x s, rfl, setDelayTimer_frame s _⟩, _, exec_ldStVx x s, rfl, rfl, setSoundTimer_frame s _⟩

/-- Settles O57: `setKey` is one write of one key, and the two gates read the keys and the sound timer (R225, R227). -/
theorem keyAndGate : Obligations.KeyAndGate := by
  unfold Obligations.KeyAndGate
  refine fun s k p => ⟨?_, setKey_frame s k p, anyPressed_eq_true_iff s, soundEnabled_eq_true_iff s⟩
  rw [State.setKey_isPressed, if_pos rfl]

end Sys2Proof.Proofs
end

section
/-!
SUPPORT. Cxnn, Fx29 and Dxy0 as the writes they make (R142, R172, R182), and what memory reads above the font at reset (R40).
-/
namespace Sys2Proof.Machine

theorem exec_rnd (x : RegIdx) (nn : Byte) (s : State) :
    exec (.rnd x nn) s = .next (s.draw8.2.setReg x (Config.drawByte s.draws &&& nn)) := rfl

theorem execWith_rnd (p : Policies) (a : Byte) (x : RegIdx) (nn : Byte) (s : State) :
    execWith p a (.rnd x nn) s = .next (s.setReg x (a &&& nn)) := rfl

/-- A masked byte has no bit that the mask has clear (R142). -/
theorem and_and_not_self (a nn : Byte) : a &&& nn &&& ~~~nn = 0 := by
  rw [BitVec.and_assoc, BitVec.and_not_self]
  exact BitVec.and_zero

theorem exec_ldF (x : RegIdx) (s : State) : exec (.ldF x) s = .next (s.setI (glyphAddr (s.reg x))) := rfl

theorem glyphAddr_toNat (b : Byte) : (glyphAddr b).toNat = b.toNat * 5 := by
  have := b.isLt
  have hfive : (BitVec.ofNat 16 Config.glyphSize).toNat = 5 := rfl
  rw [glyphAddr, BitVec.toNat_mul, byteOperand_toNat, hfive]
  omega

/-- With no row to draw, nothing is checked and only the flag is written, with 0 (R182). -/
theorem exec_drw_zero (x y : RegIdx) (s : State) : exec (.drw x y 0) s = .next (s.setReg 15 0) := rfl

theorem resetByte_of_font_le {a : Nat} (h : 0x050 ≤ a) : resetByte a = 0 :=
  List.getD_eq_default _ _ h

end Sys2Proof.Machine

namespace Sys2Proof.Proofs
open Sys2Proof.Machine

/-- Settles O4: each of the nine words is the word of its instruction (R93, R95 to R97), and reads back as it. -/
theorem decodeWords : Obligations.DecodeWords := by
  unfold Obligations.DecodeWords
  exact ⟨decode_encode .cls, decode_encode (.call 0x20C), decode_encode (.sneImm 2 8), decode_encode (.subn 1 2),
    decode_encode (.rnd 3 0x0F), decode_encode (.drw 10 11 12), decode_encode (.sknp 1), decode_encode (.ldStVx 1),
    decode_encode (.stRegs 2)⟩

/-- Settles O32: the drawn byte is masked and written to `v[x]`, with the next draw beside it in the host's interface and
nothing beside it when the draw is an argument (R142, D13). -/
theorem randomMask : Obligations.RandomMask := by
  unfold Obligations.RandomMask
  refine fun s x nn => ⟨decode_encode (.rnd x nn), rfl, ?_, fun p a => ?_⟩
  · refine ⟨_, exec_rnd x nn s, State.setReg_reg_self _ x _, ?_, rfl, exec_frame (exec_rnd x nn s)⟩
    rw [State.setReg_reg_self, and_and_not_self]
  · exact ⟨_, execWith_rnd p a x nn s, State.setReg_reg_self s x _, setReg_frame s x _⟩

/-- Settles O41: Fx29 is one write of `i` with a product that 16 bits hold (R172, D25). -/
theorem glyphAddress : Obligations.GlyphAddress := by
  unfold Obligations.GlyphAddress
  exact fun s x => ⟨_, exec_ldF x s, glyphAddr_toNat (s.reg x), setI_frame s _⟩

/-- Settles O49: Dxy0 is one write of the flag (R182, D24). -/
theorem drawZeroRows : Obligations.DrawZeroRows := by
  unfold Obligations.DrawZeroRows
  exact fun s x y => writes_reg_alone_of_exec_eq (exec_drw_zero x y s)

/-- Settles O55: the memory after reset is the font and zeros, and the rest is the reset state's own values (R40, R41). -/
theorem resetState : Obligations.ResetState := by
  unfold Obligations.ResetState
  refine ⟨fun a ha => resetByte_of_font_le ha, rfl, rfl, rfl, rfl, fun x => ?_, rfl, fun k => ?_, rfl, rfl, fun k => ?_,
    Display.cell_clear⟩
  · exact Vector.getElem_replicate x.isLt
  · exact Vector.getElem_replicate k.isLt
  · exact Vector.getElem_replicate k.isLt

/-- Settles O59: an action answers what its operation answers, and a step or a load ends the time for loads (R228, R243). -/
theorem sessionActs : Obligations.SessionActs := by
  unfold Obligations.SessionActs
  refine fun p q => ⟨fun rnd t r h => ?_, fun rnd f h => ?_, rfl, fun k b => rfl, fun bytes t hmay h => ?_⟩
  · simp only [Session.act, h]
  · simp only [Session.act, h]
  · simp only [Session.act, hmay, h, if_true]

end Sys2Proof.Proofs
end
